-- ==== Sys2Proof/Word.lean ====
section
/-! DEFINITION. Words and bytes (spec/00_scope.md R6 to R9): unsigned, bit 0 the least significant. -/

namespace Sys2Proof

/-- A byte of a message or of the block buffer (R9). -/
abbrev Byte := BitVec 8

/-- A word: a 64-bit unsigned integer, whose `+` is addition modulo 2^64 (R7). -/
abbrev Word := BitVec 64

end Sys2Proof
end

