-- ==== Sys2Proof/Syntax.lean ====
section
/-! DEFINITION. The commands: one constructor for each row of spec/opcode_table.json (R49). -/

namespace Sys2Proof

/-- A command of the core (R39). -/
inductive Instr where
  /-- INIT: start a new message. -/
  | init
  /-- BLOCK: one full block of 128 message bytes. -/
  | block
  /-- FINAL n: the last block, holding `n` message bytes; `n` is the 7-bit field `CMD[14:8]` (R40). -/
  | final (n : BitVec 7)
deriving DecidableEq, Repr

end Sys2Proof
end

