-- ==== Sys2Proof/WellFormed.lean ====
section
/-! DEFINITION. Which commands and which command words are well formed. The type of `Instr` already
excludes a valid count above 127 (R40: a 7-bit field cannot spell one), so the check that can refuse
something is the one on command words (R41). -/

namespace Sys2Proof

/-- A command is well formed when its valid count is one the padder takes, 0 to 127 (R40, R67). It is
always so; the check on command words is `legalWord`. -/
def Instr.wellFormed : Instr → Bool
  | .init => true
  | .block => true
  | .final n => decide (n.toNat ≤ 127)

/-- The operation field `OP`, bits 3 to 0 (R38). -/
def fieldOp (v : BitVec 32) : BitVec 4 := v.extractLsb' 0 4

/-- The valid-count field `N`, bits 14 to 8 (R38). -/
def fieldN (v : BitVec 32) : BitVec 7 := v.extractLsb' 8 7

/-- The reserved bits 7 to 4 are 0 (R38). -/
def lowReservedClear (v : BitVec 32) : Bool := v.extractLsb' 4 4 == 0

/-- The reserved bits 31 to 15 are 0 (R38). -/
def highReservedClear (v : BitVec 32) : Bool := v.extractLsb' 15 17 == 0

/-- A command word is legal field by field (R38, R39, R40, R41): no reserved bit is 1, `OP` is 1, 2 or
3, and `N` is 0 with INIT and BLOCK. -/
def legalWord (v : BitVec 32) : Bool :=
  lowReservedClear v && highReservedClear v &&
    ((fieldOp v == 1 && fieldN v == 0) || (fieldOp v == 2 && fieldN v == 0) || fieldOp v == 3)

end Sys2Proof
end

