-- ==== Sys2Proof/Decode.lean ====
section
/-! DEFINITION. Decoding a command word (spec/30_encoding.md R42), total on every 32-bit word and
rejecting by name, and the encoder written from the opcode map (R49). -/

namespace Sys2Proof

/-- Why a word is no command: R42 has one answer, ILLEGAL. -/
inductive DecodeError where
  /-- The word spells no command (R41); a CMD write of it raises ILLEGAL_CMD (R96). Safe. -/
  | illegal
deriving DecidableEq, Repr

/-- The command a 32-bit word spells (R42). -/
def decode (v : BitVec 32) : Except DecodeError Instr :=
  if v = 0x00000001 then .ok .init
  else if v = 0x00000002 then .ok .block
  else if v &&& 0xFFFF80FF = 0x00000003 then .ok (.final (v.extractLsb' 8 7))
  else .error .illegal

/-- The word of a command (R38, R49): `N` in bits 14 to 8, every reserved bit 0. -/
def encode : Instr → BitVec 32
  | .init => 0x00000001
  | .block => 0x00000002
  | .final n => (0#17 ++ n ++ 0x03#8 : BitVec (17 + 7 + 8))

/-- The command this decoder reads from an instruction of `nbits` bits whose bits are `w`: one 32-bit
word, every bit from `nbits` on 0 (R46). Nothing of this hardware is longer than 32 bits. -/
def decodeTableWord (nbits w : Nat) : Option Instr :=
  if nbits ≤ 32 then (decode (BitVec.ofNat 32 (w % 2 ^ nbits))).toOption else none

end Sys2Proof
end

