-- ==== Sys2Proof/Machine/Types.lean ====
section
/-! DEFINITION. The types of the machine's pieces: control values, blocks, working registers, host
accesses, turns. -/

namespace Sys2Proof.Machine

/-- A block: exactly 128 bytes, byte 0 the earliest message byte (R9, R18, R32). -/
abbrev Block := Vector Byte 128

/-- The control state `STATE` (R15, R44). Encoding 3 is never held, so it has no constructor. -/
inductive Ctrl where
  | streaming
  | finalizing
  | done
deriving DecidableEq, Repr

/-- The error code `ERRCODE` (R45). Values 5 to 7 are never held, so they have no constructor. -/
inductive ErrCode where
  | none
  | illegalCmd
  | sequence
  | cmdBusy
  | bufBusy
deriving DecidableEq, Repr

/-- The working registers `a..h` of one compression (R20). -/
structure Work where
  a : Word
  b : Word
  c : Word
  d : Word
  e : Word
  f : Word
  g : Word
  h : Word
deriving DecidableEq, Repr

/-- The core's internal state, not host-visible: working registers, schedule, padder outputs and round
index (R20, R21, R22). -/
structure Scratch where
  work : Work
  w    : Vector Word 80
  pb0  : Block
  pb1  : Block
  syn  : Bool
  t    : Fin 80
deriving DecidableEq, Repr

/-- One host access of the window (R10): `MemRead(off, n)` or `MemWrite(off, n, v)`. Offsets are 8-bit
unsigned numbers (R24). The value of an `n`-byte write is the low `n` bytes of `v` (DEDUCED, log entry 17). -/
inductive Access where
  | read  (off : BitVec 8) (n : Nat)
  | write (off : BitVec 8) (n : Nat) (v : Word)
deriving DecidableEq, Repr

/-- One line of a host program (R47, R48): an access, or `wait`, which polls `STATUS` until `BUSY` reads 0. -/
inductive HostOp where
  | access (a : Access)
  | wait
deriving DecidableEq, Repr

/-- A value that a host read returned (R91): 32 bits from `STATUS`, 64 bits from `H[i]` or `MLEN`. -/
inductive ReadVal where
  | w32 (v : BitVec 32)
  | w64 (v : Word)
deriving DecidableEq, Repr

/-- The two agents that take steps (R79). -/
inductive Agent where
  | host
  | core
deriving DecidableEq, Repr

/-- One entry of the order in which steps come: an agent's step (R79) or the reset event (R110). -/
inductive Turn where
  | agent (a : Agent)
  | reset
deriving DecidableEq, Repr

/-- Why a host access is refused (R31). -/
inductive RefuseReason where
  /-- The offset is reserved, or no row of the register map lists it (R25). -/
  | reservedOffset
  /-- A read of `BUF` or `CMD`, or a write of `STATUS`, `H[i]` or `MLEN`. -/
  | wrongDirection
  /-- The row of the register map does not list this width. -/
  | wrongWidth
  /-- A width-8 access at an offset that is not a multiple of 8. -/
  | misaligned
deriving DecidableEq, Repr

/-- What a legal read reads (R28, R29, R30). -/
inductive ReadReg where
  | status
  | digest (i : Fin 8)
  | mlen
deriving DecidableEq, Repr

/-- What a legal write writes (R26, R27). -/
inductive WriteReg where
  /-- Width 1 at offset `k` of `BUF`. -/
  | bufByte (k : Nat)
  /-- Width 8 at offset `k` of `BUF`, a multiple of 8. -/
  | bufWord (k : Nat)
  | cmd
deriving DecidableEq, Repr

/-- What the padder puts out (R61): the padded block and, when `SYN = 1`, the synthetic block. `SYN` is
whether there is one. -/
structure Padded where
  pb0 : Block
  pb1 : Option Block
deriving DecidableEq, Repr

end Sys2Proof.Machine
end

