-- ==== Sys2Proof/Machine/Primitives.lean ====
section
/-! DEFINITION. The round-function primitives (spec/40_primitives.md R50 to R58) and the big-endian view
of words (spec/00_scope.md R9). None writes state, sets a flag or raises an error. `add` (R52) is the
`+` of `Word`. -/

namespace Sys2Proof.Machine

/-- `rotr(x, n)`, rotate right by `n` in [1, 63] (R50); for other amounts see log entry 29. -/
def rotr (x : Word) (n : Nat) : Word := (x >>> n) ||| (x <<< (64 - n))

/-- `shr(x, n)`, logical shift right (R51). -/
def shr (x : Word) (n : Nat) : Word := x >>> n

/-- Three words, exclusive or bit by bit: the `⊕` of three terms that R53 to R56 and R58 share. -/
def xor3 (u v w : Word) : Word := u ^^^ v ^^^ w

/-- `σ0` of the scheduler (R53). -/
def smallSigma0 (x : Word) : Word := xor3 (rotr x 1) (rotr x 8) (shr x 7)

/-- `σ1` of the scheduler (R54). -/
def smallSigma1 (x : Word) : Word := xor3 (rotr x 19) (rotr x 61) (shr x 6)

/-- `Σ0` of the compressor (R55). -/
def bigSigma0 (x : Word) : Word := xor3 (rotr x 28) (rotr x 34) (rotr x 39)

/-- `Σ1` of the compressor (R56). -/
def bigSigma1 (x : Word) : Word := xor3 (rotr x 14) (rotr x 18) (rotr x 41)

/-- `Ch(x, y, z)`, choose (R57). -/
def ch (x y z : Word) : Word := (x &&& y) ^^^ (~~~x &&& z)

/-- `Maj(x, y, z)`, majority (R58). -/
def maj (x y z : Word) : Word := xor3 (x &&& y) (x &&& z) (y &&& z)

/-- The block whose byte `k` is `f k` (R9). Irreducible, so that no proof writes out 128 bytes unasked. -/
@[irreducible] def buildBlock (f : Fin 128 → Byte) : Block := Vector.ofFn f

/-- The word that eight bytes give, most significant byte first: `BE64` of R9. -/
def beWord (b : Fin 8 → Byte) : Word :=
  (b 0 ++ b 1 ++ b 2 ++ b 3 ++ b 4 ++ b 5 ++ b 6 ++ b 7 : BitVec (8 + 8 + 8 + 8 + 8 + 8 + 8 + 8))

/-- Byte `k` of `BEBYTES(v)`: the field `v[63 − 8k : 56 − 8k]`, for `k` in [0, 8) (R9); for other `k` see log entry 29. -/
def beByte (v : Word) (k : Nat) : Byte := v.extractLsb' (56 - 8 * k) 8

/-- `BEBYTES(v)`: the eight bytes of a word, most significant first (R9). -/
def beBytes (v : Word) : List Byte := (List.range 8).map (beByte v)

end Sys2Proof.Machine
end

