-- ==== Sys2Proof/Machine/Scheduler.lean ====
section
/-! DEFINITION. The message scheduler (spec/42_scheduler.md R69 to R72): a pure function of one block. -/

namespace Sys2Proof.Machine

/-- Big-endian framing (R69): `W[i] = BE64(B, 8·i)` for `i` in [0, 16). -/
def frameWord (b : Block) (i : Fin 16) : Word := beWord fun k => b[8 * i.val + k.val]

/-- The recurrence (R70): the word after `ws = W[0..t)`, for `t = ws.length` at least 16; for fewer
words see log entry 29. -/
def nextWord (ws : List Word) : Word :=
  smallSigma1 (ws.getD (ws.length - 2) 0) + ws.getD (ws.length - 7) 0
    + smallSigma0 (ws.getD (ws.length - 15) 0) + ws.getD (ws.length - 16) 0

/-- `ws` extended by `n` words of the recurrence (R70). -/
def extend : Nat → List Word → List Word
  | 0, ws => ws
  | n + 1, ws => extend n (ws ++ [nextWord ws])

/-- `SCHEDULE(B)`: the 80 words `W[0..79]`, 16 framed and 64 derived (R72). -/
@[irreducible] def schedule (b : Block) : List Word := extend 64 ((List.finRange 16).map (frameWord b))

end Sys2Proof.Machine
end

