-- ==== Sys2Proof/Machine/Compressor.lean ====
section
/-! DEFINITION. The 80-round compressor (spec/43_compressor.md R73 to R77). -/

namespace Sys2Proof.Machine

/-- Loading the working registers from the hash state (R73). -/
def loadWork (h : Vector Word 8) : Work := ⟨h[0], h[1], h[2], h[3], h[4], h[5], h[6], h[7]⟩

/-- `T1` of a round with constant `k` and schedule word `w` (R74). -/
def temp1 (r : Work) (k w : Word) : Word := r.h + bigSigma1 r.e + ch r.e r.f r.g + k + w

/-- `T2` of a round (R74). -/
def temp2 (r : Work) : Word := bigSigma0 r.a + maj r.a r.b r.c

/-- One round: every register from the values at its start (R75). -/
def round (r : Work) (k w : Word) : Work where
  h := r.g
  g := r.f
  f := r.e
  e := r.d + temp1 r k w
  d := r.c
  c := r.b
  b := r.a
  a := temp1 r k w + temp2 r

/-- The working registers after rounds `0` to `n − 1` with schedule `ws` (R74, R75). -/
def rounds (ws : List Word) (r : Work) : Nat → Work
  | 0 => r
  | n + 1 => round (rounds ws r n) (kAt n) (ws.getD n 0)

/-- The working registers in the order `reg = (a, b, c, d, e, f, g, h)` (R76). -/
def Work.toVector (r : Work) : Vector Word 8 := #v[r.a, r.b, r.c, r.d, r.e, r.f, r.g, r.h]

/-- Feed-forward: each working register added into its word of the hash state (R76). -/
def feedForward (h : Vector Word 8) (r : Work) : Vector Word 8 :=
  Vector.ofFn fun i => h[i] + r.toVector[i]

/-- `COMPRESS(H, B)` (R77). Irreducible, so that no proof runs 80 rounds unasked. -/
@[irreducible] def compress (h : Vector Word 8) (b : Block) : Vector Word 8 :=
  feedForward h (rounds (schedule b) (loadWork h) 80)

end Sys2Proof.Machine
end

