-- ==== Sys2Proof/Config.lean ====
section
/-! DEFINITION. What an implementation or its platform fixes, and the free values: constants without a
body, so that no proof can see what they are. -/

namespace Sys2Proof.Config

/-- A free word (R37, U4, U5): `freeWord d i` is item `i` of draw number `d`. A read of `H` or `MLEN`
while `BUSY = 1` and the working registers outside a command hold such values. -/
opaque freeWord : Nat → Nat → Word

/-- A free byte (R18, U1, U2, U5): `freeByte d k` is byte `k` of draw number `d`. -/
opaque freeByte : Nat → Nat → Byte

/-- `CORE_BASE`, the platform address of window offset 0 (R24, OPEN; log entry 19). -/
opaque coreBase : Nat

end Sys2Proof.Config
end

