-- ==== Sys2Proof/Machine/State.lean ====
section
/-! DEFINITION. The machine's state as plain data (spec/10_state.md R13 to R22), the reasons a step can
stop, and the state right after reset (R23). -/

namespace Sys2Proof.Machine

/-- The whole machine: the core's host-visible state, its internal state, and the host's side of a run. -/
structure State where
  /-- Hash state `H[0..7]` (R13). -/
  h : Vector Word 8
  /-- Message bit-length counter `MLEN` (R14). -/
  mlen : Word
  /-- Control state `STATE` (R15). -/
  ctrl : Ctrl
  /-- Busy flag `BUSY` (R16). -/
  busy : Bool
  /-- Error flag `ERR` (R17). -/
  err : Bool
  /-- Error code `ERRCODE` (R17). -/
  errcode : ErrCode
  /-- Block buffer `BUF` with its marks `WR` (R18): the marked bytes, offsets strictly rising. A byte is
  listed exactly when its mark is 1; an unmarked byte has no value (R18, R105). -/
  buf : List Host.Cell
  /-- The command in flight, `PEND` (R22). -/
  pend : Option Instr
  /-- Working registers, schedule, padder outputs, round index (R20, R21, R22). -/
  scratch : Scratch
  /-- The host's lines still to run, next first (R47, R79). -/
  host : List HostOp
  /-- The order of the steps to come (R79, R110); once it is empty, the core steps while `BUSY = 1` and
  the host otherwise (DESIGN CHOICE, log entry 2). -/
  sched : List Turn
  /-- The values the host's reads returned, oldest first (R91). -/
  reads : List ReadVal
  /-- The model's own: the agent whose step this is (DESIGN CHOICE, log entry 1). -/
  turn : Agent
  /-- The model's own: how many free values have been drawn (log entry 6). -/
  fresh : Nat
deriving DecidableEq, Repr

/-- The model faults, a closed list (R104). Each ends the run (log entry 15). -/
inductive Fault where
  /-- A refused host access (R31, R104): raised by the host's step. Safe: the host program has no meaning
  in the model, the core's state is as it was. -/
  | busRefused (reason : RefuseReason)
  /-- BLOCK or FINAL read a byte of `BUF` that the host had not written (R105): raised by their completion.
  Safe: the hardware would hash an unspecified byte, and no claim about that run can be proved. -/
  | unwrittenBufByte
deriving DecidableEq, Repr

/-- What the model refuses: nothing but an instruction whose arm has no meaning yet. -/
inductive Refusal where
  /-- Raised only by an arm of `exec` that has no meaning yet; no arm is so. Safe. -/
  | notModelled (mnemonic : String)
deriving DecidableEq, Repr

/-- The internal state at reset: unspecified in the spec (R20 to R23); zero, DESIGN CHOICE, unsafe (log entry 7). -/
def Scratch.reset : Scratch where
  work := ⟨0, 0, 0, 0, 0, 0, 0, 0⟩
  w := Vector.replicate 80 0
  pb0 := Vector.replicate 128 0
  pb1 := Vector.replicate 128 0
  syn := false
  t := 0

/-- The machine right after reset (R23, R110), with no host program and no schedule (log entries 2, 3). -/
def State.reset : State where
  h := iv
  mlen := 0
  ctrl := .streaming
  busy := false
  err := false
  errcode := .none
  buf := []
  pend := none
  scratch := Scratch.reset
  host := []
  sched := []
  reads := []
  turn := .host
  fresh := 0

end Sys2Proof.Machine
end

