-- ==== Sys2Proof/Machine/Ops.lean ====
section
/-! DEFINITION. The named operations over the block buffer and the registers: reading and writing `BUF`,
recording an interface error, accepting and retiring a command, drawing free values, reset. -/

namespace Sys2Proof.Machine

/-- The canonical form of the memory: offsets strictly rising, every one inside `BUF` (R18). A byte not
listed has no value, so every listed byte differs from it. -/
abbrev Memory.wf (m : List Host.Cell) : Prop :=
  m.Pairwise (fun c d => c.1 < d.1) ∧ ∀ c ∈ m, c.1 < 128

/-- The byte at offset `a`, or none where the byte is unmarked: `WR[a] = 0` (R18). -/
def Memory.read? : List Host.Cell → Nat → Option Byte
  | [], _ => none
  | c :: m, a => if c.1 = a then some c.2 else Memory.read? m a

/-- `BUF[a] <- b; WR[a] <- 1` (R26), in its place in the order of offsets. -/
def Memory.write : List Host.Cell → Nat → Byte → List Host.Cell
  | [], a, b => [(a, b)]
  | c :: m, a, b =>
    if c.1 < a then c :: Memory.write m a b
    else if c.1 = a then (a, b) :: m
    else (a, b) :: c :: m

/-- The bytes `bs` from offset `a` on, lowest offset first (R26). -/
def Memory.writeBytes : List Host.Cell → Nat → List Byte → List Host.Cell
  | m, _, [] => m
  | m, a, b :: bs => Memory.writeBytes (Memory.write m a b) (a + 1) bs

/-- `raise IfErr(code)`, the one error-recording action: the first error since INIT or reset is kept (R95). -/
def State.raiseIfErr (s : State) (code : ErrCode) : State :=
  if s.err then s else { s with err := true, errcode := code }

/-- `STATE` once the command `c` is accepted (R80): FINALIZING for a FINAL, as it was otherwise. -/
def acceptedCtrl (ctrl : Ctrl) : Instr → Ctrl
  | .init => ctrl
  | .block => ctrl
  | .final _ => .finalizing

/-- `accept(c)` (R80): `PEND <- c; BUSY <- 1`, and `STATE <- FINALIZING` for a FINAL. -/
def State.accept (s : State) (c : Instr) : State :=
  { s with pend := some c, busy := true, ctrl := acceptedCtrl s.ctrl c }

/-- A CMD write that finds the legal command `c`, when the tests for BUSY and for legality are behind it
(R80): INIT is always accepted; BLOCK and FINAL are ignored while `ERR = 1` (R100), raise SEQUENCE in
DONE (R97), and are accepted otherwise. -/
def State.consider (s : State) (c : Instr) : State :=
  match c with
  | .init => s.accept c
  | .block => if s.err then s else if s.ctrl = .done then s.raiseIfErr .sequence else s.accept c
  | .final _ => if s.err then s else if s.ctrl = .done then s.raiseIfErr .sequence else s.accept c

/-- Command acceptance, R80 whole, for the word's decoding `c` (none: ILLEGAL): the tests in the order of
the priority rule R101. -/
def State.writeCommand (s : State) (c : Option Instr) : State :=
  if s.busy then s.raiseIfErr .cmdBusy
  else match c with
    | none => s.raiseIfErr .illegalCmd
    | some c => s.consider c

/-- `PEND <- empty; BUSY <- 0`, the end of every completion (R82, R84, R86). -/
def State.retire (s : State) : State := { s with pend := none, busy := false }

/-- Internal state that holds free values only: draw number `d` (R20 to R22, U5). The round index keeps its
range [0, 80). -/
def Scratch.free (d : Nat) : Scratch where
  work := ⟨Config.freeWord d 0, Config.freeWord d 1, Config.freeWord d 2, Config.freeWord d 3,
    Config.freeWord d 4, Config.freeWord d 5, Config.freeWord d 6, Config.freeWord d 7⟩
  w := Vector.ofFn fun i => Config.freeWord d (8 + i.val)
  pb0 := Vector.ofFn fun k => Config.freeByte d k.val
  pb1 := Vector.ofFn fun k => Config.freeByte d (128 + k.val)
  syn := (Config.freeWord d 88).getLsbD 0
  t := Fin.ofNat 80 (Config.freeWord d 89).toNat

/-- The internal state after a command or a reset that used or cleared it: free values, the draw counted
(DESIGN CHOICE, log entry 8). -/
def State.freeScratch (s : State) : State :=
  { s with scratch := Scratch.free s.fresh, fresh := s.fresh + 1 }

/-- The reset event (R110): every piece of the core's state to its value of R23; a command in flight is
abandoned. What R23 leaves unspecified is free, or has no value (`BUF`). The host's side is not the core's (log entry 9). -/
def State.resetEvent (s : State) : State :=
  { s with
    h := State.reset.h
    mlen := State.reset.mlen
    ctrl := State.reset.ctrl
    busy := State.reset.busy
    err := State.reset.err
    errcode := State.reset.errcode
    buf := State.reset.buf
    pend := State.reset.pend
    scratch := Scratch.free s.fresh
    fresh := s.fresh + 1 }

/-- The value of a host read, kept with those before it (R91). -/
def State.logRead (s : State) (v : ReadVal) : State := { s with reads := s.reads ++ [v] }

/-- A read of a 64-bit register that holds `v` (R29, R30): `v` while `BUSY = 0`; while `BUSY = 1` a free
value, another one at each read (R34, R37, U4). -/
def State.readWord (s : State) (v : Word) : State :=
  if s.busy then { s with reads := s.reads ++ [.w64 (Config.freeWord s.fresh 0)], fresh := s.fresh + 1 }
  else s.logRead (.w64 v)

/-- A legal `BUF` write of the bytes `bs` at offset `k` (R26): stored and marked, or, while `BUSY = 1`,
dropped with BUF_BUSY (R99). -/
def State.storeBytes (s : State) (k : Nat) (bs : List Byte) : State :=
  if s.busy then s.raiseIfErr .bufBusy else { s with buf := Memory.writeBytes s.buf k bs }

end Sys2Proof.Machine
end

