-- ==== Sys2Proof/Machine/Operands.lean ====
section
/-! DEFINITION. The operand forms: the valid count and the bytes of `BUF` that a command reads, and the
register a host access names (spec/20_memory.md R25, R31). -/

namespace Sys2Proof.Machine

/-- FINAL's operand: `n = zext(N)`, an unsigned byte count in [0, 127] (R40). -/
def validCount (n : BitVec 7) : Nat := n.toNat

/-- Whether `WR[k] = 1` for every `k` in [0, n): no byte that a command reads is unmarked (R105). -/
@[irreducible] def marked (m : List Host.Cell) (n : Nat) : Bool :=
  (List.range n).all fun k => (Memory.read? m k).isSome

/-- `BUF` as a block of 128 bytes. The value of an unmarked byte is unspecified: a free value of draw `d`
(R18, U1, U2), which no result depends on, since a command that would read one faults (R105; log entry 5). -/
def bufBlock (m : List Host.Cell) (d : Nat) : Block :=
  buildBlock fun k => (Memory.read? m k.val).getD (Config.freeByte d k.val)

/-- The register that `MemRead(off, n)` reads, or why the access is refused (R25, R28 to R31). The order in
which the causes are looked at is a DESIGN CHOICE (log entry 12), offsets without a row are DEDUCED (log entry 13). -/
def locateRead (off : BitVec 8) (n : Nat) : Except RefuseReason ReadReg :=
  let o := off.toNat
  if o ≤ 0x80 then .error .wrongDirection
  else if o = 0x84 then if n = 4 then .ok .status else .error .wrongWidth
  else if 0x90 ≤ o ∧ o < 0xD8 then
    if n ≠ 8 then .error .wrongWidth
    else if o % 8 ≠ 0 then .error .misaligned
    else if o = 0xD0 then .ok .mlen
    else .ok (.digest (Fin.ofNat 8 ((o - 0x90) / 8)))
  else .error .reservedOffset

/-- The register that `MemWrite(off, n, v)` writes, or why the access is refused (R25 to R27, R31). -/
def locateWrite (off : BitVec 8) (n : Nat) : Except RefuseReason WriteReg :=
  let o := off.toNat
  if o < 0x80 then
    if n = 1 then .ok (.bufByte o)
    else if n = 8 then if o % 8 = 0 then .ok (.bufWord o) else .error .misaligned
    else .error .wrongWidth
  else if o = 0x80 then if n = 4 then .ok .cmd else .error .wrongWidth
  else if o = 0x84 ∨ (0x90 ≤ o ∧ o < 0xD8) then .error .wrongDirection
  else .error .reservedOffset

/-- The window offset of a platform address (R24): `CORE_BASE + off` is offset `off`; an address outside
the 256 bytes of the window is no access of this core (log entry 19). -/
def windowOffset (addr : Nat) : Option (BitVec 8) :=
  if Config.coreBase ≤ addr ∧ addr < Config.coreBase + 256 then
    some (BitVec.ofNat 8 (addr - Config.coreBase))
  else none

/-- The platform address of a window offset (R24). -/
def platformAddress (off : BitVec 8) : Nat := Config.coreBase + off.toNat

end Sys2Proof.Machine
end

