-- ==== Sys2Proof/Machine/Padder.lean ====
section
/-! DEFINITION. The padder and sealer (spec/41_padder.md R61 to R67). -/

namespace Sys2Proof.Machine

/-- The block of 128 bytes `0x00`. -/
def zeroBlock : Block := buildBlock fun _ => 0x00

/-- Terminator and zero-fill (R62): the valid bytes `B[0..n)`, then `0x80`, then zeros. For `n` of 128 or more see
log entry 29. -/
def terminate (b : Block) (n : Nat) : Block :=
  buildBlock fun k => if k.val < n then b[k] else if k.val = n then 0x80 else 0x00

/-- Sealing (R63, R64): `BEBYTES(len)` into the last 8 bytes of a block. -/
def sealBlock (b : Block) (len : Word) : Block :=
  buildBlock fun k => if 120 ≤ k.val then beByte len (k.val - 120) else b[k]

/-- `PAD(B, n, len)` (R61). `SEAL_MAX_N` is 111 (R5): up to it the trailer fits behind the terminator (R63);
above it the padded block stays unsealed and the synthetic block carries the trailer (R64). The spec gives no result
for `n` of 128 or more, which no command can request (R67, N19): what this function answers there, the block with no
terminator and a synthetic block, is a DESIGN CHOICE (log entry 29). -/
def pad (b : Block) (n : Nat) (len : Word) : Padded :=
  if n ≤ 111 then ⟨sealBlock (terminate b n) len, none⟩
  else ⟨terminate b n, some (sealBlock zeroBlock len)⟩

end Sys2Proof.Machine
end

