-- ==== Sys2Proof/Machine/Commands.lean ====
section
/-! DEFINITION. The meanings of INIT, BLOCK and FINAL (spec/44_commands.md R80 to R86). A command is taken
in two steps (R79): on the host's turn its word is written to CMD (acceptance), on the core's turn it
completes. A meaning covers both; `State.turn` says whose step it is (DESIGN CHOICE, log entries 1, 25). -/

namespace Sys2Proof.Machine

/-- INIT's completion (R82). `BUF` and every `WR[k]` are unchanged. -/
def completeInit (s : State) : State :=
  { s.retire with h := iv, mlen := 0, ctrl := .streaming, err := false, errcode := .none }

/-- The hash state after the padder's block or blocks (R86): one compression, or two when `SYN = 1`. -/
def compressPadded (h : Vector Word 8) (p : Padded) : Vector Word 8 :=
  match p.pb1 with
  | none => compress h p.pb0
  | some b => compress (compress h p.pb0) b

/-- BLOCK's completion when every byte is marked (R84). -/
def completeBlock (s : State) : State :=
  { s.freeScratch.retire with
    mlen := s.mlen + 1024
    h := compress s.h (bufBlock s.buf s.fresh) }

/-- FINAL's completion when the `n` bytes it reads are marked (R86): the trailer is `MLEN` after the
addition (R66). -/
def completeFinal (n : Nat) (s : State) : State :=
  { s.freeScratch.retire with
    mlen := s.mlen + 8 * BitVec.ofNat 64 n
    h := compressPadded s.h (pad (bufBlock s.buf s.fresh) n (s.mlen + 8 * BitVec.ofNat 64 n))
    buf := []
    ctrl := .done }

/-- INIT: acceptance R81, completion R82. -/
def execInit (s : State) : Host.Outcome State Fault Refusal :=
  match s.turn with
  | .host => .next (s.writeCommand (some .init))
  | .core => .next (completeInit s)

/-- BLOCK: acceptance R83, completion R84; a byte of `BUF` that is unmarked is a model fault (R105). -/
def execBlock (s : State) : Host.Outcome State Fault Refusal :=
  match s.turn with
  | .host => .next (s.writeCommand (some .block))
  | .core => if marked s.buf 128 then .next (completeBlock s) else .fault .unwrittenBufByte

/-- FINAL n: acceptance R85, completion R86; a byte below `n` that is unmarked is a model fault (R105). -/
def execFinal (n : BitVec 7) (s : State) : Host.Outcome State Fault Refusal :=
  match s.turn with
  | .host => .next (s.writeCommand (some (.final n)))
  | .core =>
    if marked s.buf (validCount n) then .next (completeFinal (validCount n) s)
    else .fault .unwrittenBufByte

end Sys2Proof.Machine
end

