-- ==== Sys2Proof/Machine/Flags.lean ====
section
/-! DEFINITION. The status word and its fields (spec/30_encoding.md R43 to R45). -/

namespace Sys2Proof.Machine

/-- The two bits of `STATE` in `STATUS[9:8]` (R44). -/
def Ctrl.code : Ctrl → BitVec 2
  | .streaming => 0b00
  | .finalizing => 0b01
  | .done => 0b10

/-- The three bits of `ERRCODE` in `STATUS[6:4]` (R45). -/
def ErrCode.code : ErrCode → BitVec 3
  | .none => 0
  | .illegalCmd => 1
  | .sequence => 2
  | .cmdBusy => 3
  | .bufBusy => 4

/-- `DVALID = (STATE = DONE) and (BUSY = 0) and (ERR = 0)`, computed at each read (R43). -/
def State.dvalid (s : State) : Bool := (s.ctrl == .done) && !s.busy && !s.err

/-- The status word (R43): bits 31:10, 7 and 3 read 0. -/
def State.status (s : State) : BitVec 32 :=
  (0#22 ++ s.ctrl.code ++ 0#1 ++ s.errcode.code ++ 0#1 ++ BitVec.ofBool s.err
    ++ BitVec.ofBool s.dvalid ++ BitVec.ofBool s.busy : BitVec (22 + 2 + 1 + 3 + 1 + 1 + 1 + 1))

end Sys2Proof.Machine
end

