-- ==== Sys2Proof/Machine/Window.lean ====
section
/-! DEFINITION. Host accesses of the window (spec/20_memory.md R26 to R31). -/

namespace Sys2Proof.Machine

/-- A CMD write of the word `v` (R27, R80): a legal word is its command's acceptance, any other is
CMD_BUSY or ILLEGAL_CMD. -/
def commandWrite (v : BitVec 32) (s : State) : Host.Outcome State Fault Refusal :=
  match decode v with
  | .ok i => exec i s
  | .error .illegal => .next (s.writeCommand none)

/-- `MemRead(off, n)` (R28 to R31). -/
def hostRead (off : BitVec 8) (n : Nat) (s : State) : Host.Outcome State Fault Refusal :=
  match locateRead off n with
  | .error r => .fault (.busRefused r)
  | .ok .status => .next (s.logRead (.w32 s.status))
  | .ok (.digest i) => .next (s.readWord s.h[i])
  | .ok .mlen => .next (s.readWord s.mlen)

/-- `MemWrite(off, n, v)` (R26, R27, R31). -/
def hostWrite (off : BitVec 8) (n : Nat) (v : Word) (s : State) : Host.Outcome State Fault Refusal :=
  match locateWrite off n with
  | .error r => .fault (.busRefused r)
  | .ok (.bufByte k) => .next (s.storeBytes k [v.extractLsb' 0 8])
  | .ok (.bufWord k) => .next (s.storeBytes k (beBytes v))
  | .ok .cmd => commandWrite (v.extractLsb' 0 32) s

/-- One access (R10, R79). -/
def hostAccess (a : Access) (s : State) : Host.Outcome State Fault Refusal :=
  match a with
  | .read off n => hostRead off n s
  | .write off n v => hostWrite off n v s

end Sys2Proof.Machine
end

