-- ==== Sys2Proof/Machine/Agents.lean ====
section
/-! DEFINITION. The steps of the two agents and the reset event (spec/44_commands.md R79, R90, R91). -/

namespace Sys2Proof.Machine

/-- One line of `wait` (R48): `ld.w 0x84`, and the line stays until bit 0 of the value read is 0
(DEDUCED, log entry 24). -/
def pollStatus (rest : List HostOp) (s : State) : State :=
  if s.status.getLsbD 0 then s.logRead (.w32 s.status)
  else { s.logRead (.w32 s.status) with host := rest }

/-- A host step (R79): its next line. A host that has run its last line does nothing (R91; log entry 14). -/
def hostStep (s : State) : Host.Outcome State Fault Refusal :=
  match s.host with
  | [] => .next s
  | .access a :: rest => hostAccess a { s with host := rest }
  | .wait :: rest => .next (pollStatus rest s)

/-- A core step (R79): the completion of the command in flight, enabled exactly when `BUSY = 1`. A turn of
the core while it is idle or has nothing in flight does nothing (log entries 10, 11). -/
def coreStep (s : State) : Host.Outcome State Fault Refusal :=
  match s.busy, s.pend with
  | true, some i => exec i s
  | true, none => .next s
  | false, _ => .next s

/-- The step of one entry of the order (R79, R110). -/
def takeTurn (t : Turn) (s : State) : Host.Outcome State Fault Refusal :=
  match t with
  | .agent .host => hostStep { s with turn := .host }
  | .agent .core => coreStep { s with turn := .core }
  | .reset => .next s.resetEvent

/-- Who steps next: the head of the order; when there is none, the core while `BUSY = 1` (an accepted
command completes, R90), the host otherwise (DESIGN CHOICE, log entry 2). -/
def State.nextTurn (s : State) : Turn :=
  match s.sched with
  | t :: _ => t
  | [] => if s.busy then .agent .core else .agent .host

/-- One step of the run: the next entry of the order is taken off and its step done. -/
def stepTurn (s : State) : Host.Outcome State Fault Refusal :=
  takeTurn s.nextTurn { s with sched := s.sched.tail }

/-- `s` with one CMD write of the word `w` as the host's next line, and the host's turn next. -/
def State.placeCommand (s : State) (w : BitVec 32) : State :=
  { s with
    host := .access (.write 0x80 4 (w.setWidth 64)) :: s.host
    sched := .agent .host :: s.sched }

end Sys2Proof.Machine
end

