-- ==== Sys2Proof/Machine/Step.lean ====
section
/-! DEFINITION. The step of the machine, and where the host of this package places an instruction. -/

namespace Sys2Proof.Machine

/-- One step (R79): one host access, one completion, or one reset. -/
def step (s : State) : Host.Outcome State Fault Refusal := stepTurn s

/-- `s` with the command word `w` as the next thing the host writes to CMD, so that the next step is its
acceptance. It stands for loading a host program (log entry 3). -/
def State.withFetchWord (s : State) (nbits w : Nat) : State :=
  s.placeCommand (BitVec.ofNat 32 (w % 2 ^ nbits))

end Sys2Proof.Machine
end

