-- ==== Sys2Proof/Machine/HostAsm.lean ====
section
/-! DEFINITION. The host's assembler lines and their expansion into accesses (spec/30_encoding.md R47,
R48), and the host procedure that hashes a message (spec/44_commands.md R87). Operands are numbers, as
the syntax writes them; a well-formed line is one whose operands fit their fields. -/

namespace Sys2Proof.Machine

/-- One line of a host program (R47, R48). -/
inductive AsmLine where
  | stB (off v8 : Nat)
  | stD (off v64 : Nat)
  | stW (off v32 : Nat)
  | ldW (off : Nat)
  | ldD (off : Nat)
  | init
  | block
  | final (n : Nat)
  | wait
  | ldStatus
  | ldH (i : Nat)
  | ldMlen
  | stText (off : Nat) (text : List Char)
  | stFill (off m v8 : Nat)
deriving DecidableEq, Repr

/-- Operands that fit: offsets of 8 bits (R24), values of the access's width (R47), `n` in [0, 127] and `i`
in [0, 7] (R48), text of ASCII characters that ends inside the window (log entry 27). -/
def AsmLine.wellFormed : AsmLine → Bool
  | .stB off v => decide (off < 256 ∧ v < 2 ^ 8)
  | .stD off v => decide (off < 256 ∧ v < 2 ^ 64)
  | .stW off v => decide (off < 256 ∧ v < 2 ^ 32)
  | .ldW off => decide (off < 256)
  | .ldD off => decide (off < 256)
  | .init => true
  | .block => true
  | .final n => decide (n ≤ 127)
  | .wait => true
  | .ldStatus => true
  | .ldH i => decide (i ≤ 7)
  | .ldMlen => true
  | .stText off text => decide (off + text.length ≤ 256 ∧ ∀ c ∈ text, c.toNat < 128)
  | .stFill off m v => decide (off + m ≤ 256 ∧ v < 2 ^ 8)

/-- `MemWrite(off, n, v)` as a line. -/
def hostStore (off n v : Nat) : HostOp := .access (.write (BitVec.ofNat 8 off) n (BitVec.ofNat 64 v))

/-- `MemRead(off, n)` as a line. -/
def hostLoad (off n : Nat) : HostOp := .access (.read (BitVec.ofNat 8 off) n)

/-- One `st.b` a byte, from offset `off` up (R48). -/
def storeEach : Nat → List Nat → List HostOp
  | _, [] => []
  | off, v :: vs => hostStore off 1 v :: storeEach (off + 1) vs

/-- The accesses that a line stands for (R47, R48). Of an ill-formed line, which the rules give no meaning, offsets
are taken modulo 256 and values modulo 2^64 (DESIGN CHOICE, log entry 27). -/
def AsmLine.expand : AsmLine → List HostOp
  | .stB off v => [hostStore off 1 v]
  | .stD off v => [hostStore off 8 v]
  | .stW off v => [hostStore off 4 v]
  | .ldW off => [hostLoad off 4]
  | .ldD off => [hostLoad off 8]
  | .init => [hostStore 0x80 4 0x00000001]
  | .block => [hostStore 0x80 4 0x00000002]
  | .final n => [hostStore 0x80 4 (0x00000003 + n * 256)]
  | .wait => [.wait]
  | .ldStatus => [hostLoad 0x84 4]
  | .ldH i => [hostLoad (0x90 + 8 * i) 8]
  | .ldMlen => [hostLoad 0xD0 8]
  | .stText off text => storeEach off (text.map Char.toNat)
  | .stFill off m v => storeEach off (List.replicate m v)

/-- The lines that write one full block and absorb it (R87). R87 leaves the writes open; one width-1 `st.b` a byte
in rising offset order is a DESIGN CHOICE (log entry 28). -/
def hashBlockLines (bytes : List Byte) : List HostOp :=
  storeEach 0 (bytes.map BitVec.toNat) ++ AsmLine.block.expand ++ AsmLine.wait.expand

/-- `HASH(M)` from reset or a completed INIT (R87): the full blocks with BLOCK, the rest with FINAL, then the
reads of `STATUS` and `H[0..7]`. How each block is written, and the order of the last reads, is a DESIGN CHOICE
(log entry 28). -/
def hashProgram (m : List Byte) : List HostOp :=
  ((List.range (m.length / 128)).flatMap fun j => hashBlockLines ((m.drop (128 * j)).take 128))
    ++ storeEach 0 ((m.drop (128 * (m.length / 128))).map BitVec.toNat)
    ++ (AsmLine.final (m.length % 128)).expand ++ AsmLine.wait.expand
    ++ AsmLine.ldStatus.expand ++ (List.range 8).flatMap fun i => (AsmLine.ldH i).expand

end Sys2Proof.Machine
end

