-- ==== Sys2Proof/Safety.lean ====
section
/-! DEFINITION. The terms claims use: the machine's invariant, the transition table of R93, and the padded
message and its digest, written from the padding rules and not from the padder. -/

namespace Sys2Proof.Machine

/-- What holds in every state that a run reaches. -/
structure Inv (s : State) : Prop where
  /-- `BUF` keeps its canonical form, every offset below 128 (R18). -/
  buf_wf : Memory.wf s.buf
  /-- `PEND` is empty exactly when `BUSY = 0` (R16, R22). -/
  busy_pend : s.busy = s.pend.isSome
  /-- FINALIZING is held exactly while a FINAL is in flight (R15, D30). -/
  finalizing : s.ctrl = .finalizing ↔ ∃ n, s.pend = some (.final n)
  /-- A BLOCK is in flight only in STREAMING (R83, R93). -/
  block_streaming : s.pend = some .block → s.ctrl = .streaming
  /-- `ERRCODE` is NONE exactly when `ERR = 0` (R17, R45, R95). -/
  err_code : s.err = true ↔ s.errcode ≠ .none
  /-- `MLEN` counts whole bytes (R14). -/
  mlen_bytes : s.mlen.toNat % 8 = 0
  /-- Until a message is done, `MLEN` counts whole blocks (R14, R84). -/
  mlen_blocks : s.ctrl ≠ .done → s.mlen.toNat % 1024 = 0

/-- One row of the transition table, or no transition: how `STATE` and `BUSY` may go from one state to the
next (R93). The first alternative is any event that leaves both as they were. -/
def Transition (s t : State) : Prop :=
  (t.ctrl = s.ctrl ∧ t.busy = s.busy)
  ∨ (s.busy = false ∧ t.ctrl = s.ctrl ∧ t.busy = true ∧ t.pend = some .init)
  ∨ (s.busy = true ∧ s.pend = some .init ∧ t.ctrl = .streaming ∧ t.busy = false)
  ∨ (s.ctrl = .streaming ∧ s.busy = false ∧ t.ctrl = .streaming ∧ t.busy = true ∧ t.pend = some .block)
  ∨ (s.ctrl = .streaming ∧ s.busy = true ∧ s.pend = some .block ∧ t.ctrl = .streaming ∧ t.busy = false)
  ∨ (s.ctrl = .streaming ∧ s.busy = false ∧ t.ctrl = .finalizing ∧ t.busy = true
      ∧ ∃ n, t.pend = some (.final n))
  ∨ (s.ctrl = .finalizing ∧ s.busy = true ∧ (∃ n, s.pend = some (.final n)) ∧ t.ctrl = .done ∧ t.busy = false)
  ∨ (s.nextTurn = .reset ∧ t.ctrl = .streaming ∧ t.busy = false)

/-- The zero bytes between the terminator and the 16-byte length field of a message of `L` bytes: the least
number that makes the padded message a whole number of blocks (R68). -/
def zeroCount (L : Nat) : Nat := (239 - L % 128) % 128

/-- The padded message (R62 to R66, R68): the message, `0x80`, zeros, 8 zero bytes, and the bit count modulo
2^64 in 8 bytes, most significant first. -/
def paddedMessage (m : List Byte) : List Byte :=
  m ++ [0x80] ++ List.replicate (zeroCount m.length) 0x00 ++ List.replicate 8 0x00
    ++ beBytes (BitVec.ofNat 64 (8 * m.length))

/-- Block `j` of a byte string. -/
def blockAt (m : List Byte) (j : Nat) : Block := buildBlock fun k => m.getD (128 * j + k.val) 0x00

/-- The full blocks of a byte string, in order. -/
def blocksOf (m : List Byte) : List Block := (List.range (m.length / 128)).map (blockAt m)

/-- Blocks compressed in turn from the initial hash value (R88). -/
def absorbed (bs : List Block) : Vector Word 8 := bs.foldl compress iv

/-- The digest of a message: its padded blocks compressed in turn (R88). -/
def messageDigest (m : List Byte) : Vector Word 8 := absorbed (blocksOf (paddedMessage m))

/-- `H` and `MLEN` stand for the message bytes `m`, a whole number of blocks, and nothing more (R13, R14, R88). -/
def StandsFor (s : State) (m : List Byte) : Prop :=
  m.length % 128 = 0 ∧ s.h = absorbed (blocksOf m) ∧ s.mlen = BitVec.ofNat 64 (8 * m.length)

/-- `BUF[0..bytes.length)` holds `bytes`, every byte marked. -/
def Holds (s : State) (bytes : List Byte) : Prop :=
  ∀ k, (hk : k < bytes.length) → Memory.read? s.buf k = some bytes[k]

/-- Host accesses one after the other, with no step of the core between them (R35). -/
def runAccesses : List Access → State → Host.Outcome State Fault Refusal
  | [], s => .next s
  | a :: as, s =>
    match hostAccess a s with
    | .next t => runAccesses as t
    | .fault r => .fault r
    | .refused r => .refused r

/-- What a recorded interface error makes of a state (R95): `ERR` set, the first code kept. -/
def withError (s : State) (code : ErrCode) : State :=
  { s with err := true, errcode := if s.err then s.errcode else code }

/-- The host's lines, the order of steps, the values read and the turn are as before. -/
def SameHostSide (s t : State) : Prop :=
  t.host = s.host ∧ t.sched = s.sched ∧ t.reads = s.reads ∧ t.turn = s.turn

/-- Every byte of `BUF` reads as before, marks included. -/
def SameBytes (s t : State) : Prop := ∀ a, Memory.read? t.buf a = Memory.read? s.buf a

/-- The accesses that the register map lists for reading (R25). -/
def ReadListed (off : BitVec 8) (n : Nat) : Prop :=
  (off = 0x84 ∧ n = 4) ∨ (∃ i : Fin 8, off.toNat = 0x90 + 8 * i.val ∧ n = 8) ∨ (off = 0xD0 ∧ n = 8)

/-- The accesses that the register map lists for writing (R25). -/
def WriteListed (off : BitVec 8) (n : Nat) : Prop :=
  (off.toNat ≤ 0x7F ∧ n = 1) ∨ (off.toNat ≤ 0x7F ∧ off.toNat % 8 = 0 ∧ n = 8) ∨ (off = 0x80 ∧ n = 4)

/-- The primes below 410 by trial division, the first 80 (R59, R60). -/
def primesBelow410 : List Nat :=
  (List.range 410).filter fun p => decide (2 ≤ p) && (List.range p).all fun d => decide (d < 2) || p % d != 0

end Sys2Proof.Machine
end

