-- ==== Sys2Proof/Certificates/Slice0/Obligations.lean ====
section
/-! DEFINITION. The statements for the provers, from the numbered rules of spec/. -/

open Sys2Proof Sys2Proof.Machine

/-! ## Primitives and constants -/

/-- R50: a right rotation moves bit `(i + n) mod 64` to bit `i`, fixes 0 and all ones, and keeps the number
of 1 bits. -/
def Obligations.RotateRightPermutesBits : Prop :=
  (∀ (x : Word) (n : Nat), 1 ≤ n → n ≤ 63 →
    rotr x n = (x >>> n) ||| (x <<< (64 - n))
    ∧ (∀ i, i < 64 → (rotr x n).getLsbD i = x.getLsbD ((i + n) % 64))
    ∧ rotr 0 n = 0 ∧ rotr (BitVec.allOnes 64) n = BitVec.allOnes 64
    ∧ (List.range 64).countP (fun i => (rotr x n).getLsbD i) = (List.range 64).countP (fun i => x.getLsbD i))
  ∧ rotr 0x0123456789abcdef 8 = 0xef0123456789abcd ∧ rotr 0x8000000000000000 63 = 0x0000000000000001

/-- R51: the logical shift is division by a power of two, zeros enter at bit 63. -/
def Obligations.LogicalShiftRight : Prop :=
  (∀ (x : Word) (n : Nat), (shr x n).toNat = x.toNat / 2 ^ n
    ∧ (∀ i, 64 - n ≤ i → (shr x n).getLsbD i = false)
    ∧ (x.toNat < 2 ^ n → shr x n = 0))
  ∧ shr (BitVec.allOnes 64) 7 = 0x01ffffffffffffff ∧ shr 0x0123456789abcdef 7 = 0x0002468acf13579b

/-- R53, R54: the scheduler's functions bit by bit, their linearity over exclusive or, and the rules'
corner cases and examples. -/
def Obligations.SchedulerSigmas : Prop :=
  (∀ (x : Word) (i : Nat), i < 64 →
    (smallSigma0 x).getLsbD i
        = ((x.getLsbD ((i + 1) % 64) ^^ x.getLsbD ((i + 8) % 64)) ^^ x.getLsbD (i + 7))
    ∧ (smallSigma1 x).getLsbD i
        = ((x.getLsbD ((i + 19) % 64) ^^ x.getLsbD ((i + 61) % 64)) ^^ x.getLsbD (i + 6)))
  ∧ (∀ x y : Word, smallSigma0 (x ^^^ y) = smallSigma0 x ^^^ smallSigma0 y
    ∧ smallSigma1 (x ^^^ y) = smallSigma1 x ^^^ smallSigma1 y)
  ∧ smallSigma0 0 = 0 ∧ smallSigma0 (BitVec.allOnes 64) = 0x01ffffffffffffff
  ∧ smallSigma0 1 = 0x8100000000000000 ∧ smallSigma0 0x8000000000000000 = 0x4180000000000000
  ∧ smallSigma0 0x0123456789abcdef = 0x6f92c77c6c4f1aa1
  ∧ smallSigma1 0 = 0 ∧ smallSigma1 (BitVec.allOnes 64) = 0x03ffffffffffffff
  ∧ smallSigma1 1 = 0x0000200000000008 ∧ smallSigma1 0x8000000000000000 = 0x0200100000000004
  ∧ smallSigma1 0x0123456789abcdef = 0x70a3460dbbd4317a

/-- R55, R56: the compressor's functions bit by bit, and the rules' corner cases and examples. -/
def Obligations.CompressorSigmas : Prop :=
  (∀ (x : Word) (i : Nat), i < 64 →
    (bigSigma0 x).getLsbD i
        = ((x.getLsbD ((i + 28) % 64) ^^ x.getLsbD ((i + 34) % 64)) ^^ x.getLsbD ((i + 39) % 64))
    ∧ (bigSigma1 x).getLsbD i
        = ((x.getLsbD ((i + 14) % 64) ^^ x.getLsbD ((i + 18) % 64)) ^^ x.getLsbD ((i + 41) % 64)))
  ∧ bigSigma0 0 = 0 ∧ bigSigma0 (BitVec.allOnes 64) = BitVec.allOnes 64
  ∧ bigSigma0 1 = 0x0000001042000000 ∧ bigSigma0 0x8000000000000000 = 0x0000000821000000
  ∧ bigSigma0 0x6a09e667f3bcc908 = 0x08c4db56aac80c2a ∧ bigSigma0 0x0123456789abcdef = 0xb7c57a100c7ec1ab
  ∧ bigSigma1 0 = 0 ∧ bigSigma1 (BitVec.allOnes 64) = BitVec.allOnes 64
  ∧ bigSigma1 1 = 0x0004400000800000 ∧ bigSigma1 0x8000000000000000 = 0x0002200000400000
  ∧ bigSigma1 0x510e527fade682d1 = 0x9427e33bb5c9dbca ∧ bigSigma1 0x0123456789abcdef = 0x7703112333475567

/-- R57, R58: choose and majority bit by bit, with the rules' identities and examples. -/
def Obligations.ChooseAndMajority : Prop :=
  (∀ (x y z : Word) (i : Nat),
    (ch x y z).getLsbD i = (if x.getLsbD i then y.getLsbD i else z.getLsbD i)
    ∧ (maj x y z).getLsbD i
        = ((x.getLsbD i && y.getLsbD i) || (x.getLsbD i && z.getLsbD i) || (y.getLsbD i && z.getLsbD i)))
  ∧ (∀ x y z : Word,
    ch (BitVec.allOnes 64) y z = y ∧ ch 0 y z = z ∧ ch x y y = y ∧ ch x x z = x ||| z ∧ ch x y x = x &&& y
    ∧ maj x x z = x ∧ maj x y z = maj y x z ∧ maj x y z = maj y z x
    ∧ maj (BitVec.allOnes 64) 0 0 = 0
    ∧ maj (BitVec.allOnes 64) (BitVec.allOnes 64) 0 = BitVec.allOnes 64)
  ∧ ch 0xf0f0f0f0f0f0f0f0 0xcccccccccccccccc 0xaaaaaaaaaaaaaaaa = 0xcacacacacacacaca
  ∧ ch iv[4] iv[5] iv[6] = 0x1f85c98c7b273d3b
  ∧ maj 0xf0f0f0f0f0f0f0f0 0xcccccccccccccccc 0xaaaaaaaaaaaaaaaa = 0xe8e8e8e8e8e8e8e8
  ∧ maj iv[0] iv[1] iv[2] = 0x3a6fe667f69ce92b

/-- R59, R60: `IV[i]` and `K[t]` are the first 64 bits of the fractional parts of the square and cube roots of
the first primes: with some whole part `c`, the number `c·2^64 + IV[i]` is the floor of the root of
`p·2^128`, and `c·2^64 + K[t]` that of `p·2^192`. The values themselves stand in the rules' tables; the
spec marks this characterisation as general knowledge (log entry 16). -/
def Obligations.ConstantsArePrimeRoots : Prop :=
  primesBelow410.length = 80
  ∧ (∀ i : Fin 8, ∃ c : Fin 8,
      (c.val * 2 ^ 64 + iv[i].toNat) ^ 2 ≤ primesBelow410.getD i.val 0 * 2 ^ 128
      ∧ primesBelow410.getD i.val 0 * 2 ^ 128 < (c.val * 2 ^ 64 + iv[i].toNat + 1) ^ 2)
  ∧ (∀ t : Fin 80, ∃ c : Fin 8,
      (c.val * 2 ^ 64 + (kAt t.val).toNat) ^ 3 ≤ primesBelow410.getD t.val 0 * 2 ^ 192
      ∧ primesBelow410.getD t.val 0 * 2 ^ 192 < (c.val * 2 ^ 64 + (kAt t.val).toNat + 1) ^ 3)

/-- R9: `BE64` is the sum of the bytes with the first the most significant, and `BEBYTES` is its inverse. -/
def Obligations.BigEndianWordsAndBytes : Prop :=
  (∀ b : Fin 8 → Byte, (beWord b).toNat = ∑ k : Fin 8, (b k).toNat * 2 ^ (8 * (7 - k.val)))
  ∧ (∀ (b : Fin 8 → Byte) (k : Fin 8), beByte (beWord b) k.val = b k)
  ∧ (∀ v : Word, beWord (fun k => beByte v k.val) = v)

/-! ## Padder, scheduler, compressor -/

/-- R61, R62, R63, R64: every byte of the padded block and of the synthetic block, when there is one, and the
last 16 bytes of a sealed block as one big-endian number. -/
def Obligations.PadderBuildsBlocks : Prop :=
  ∀ (b : Block) (n : Nat) (len : Word), n ≤ 127 →
    (∀ k, (hk : k < 128) → (pad b n len).pb0[k] =
      if k < n then b[k] else if k = n then 0x80
      else if n ≤ 111 ∧ 120 ≤ k then beByte len (k - 120) else 0x00)
    ∧ (n ≤ 111 → (pad b n len).pb1 = none
        ∧ (∑ j : Fin 16, ((pad b n len).pb0[112 + j.val]).toNat * 2 ^ (8 * (15 - j.val))) = len.toNat)
    ∧ (112 ≤ n → ∃ p, (pad b n len).pb1 = some p
        ∧ ∀ k, (hk : k < 128) → p[k] = if 120 ≤ k then beByte len (k - 120) else 0x00)

/-- R62, R65: what `B[n..128)` holds never reaches the padder's blocks; with `n = 0` no byte is read, and the
block is `0x80`, zeros and the trailer. The first clause also runs over `n` of 128 or more, where the spec gives no
result (R67, N19): what it says there is the model's choice (log entry 29). -/
def Obligations.PadderReadsOnlyValidBytes : Prop :=
  (∀ (b b' : Block) (n : Nat) (len : Word),
    (∀ k, (hk : k < 128) → k < n → b[k] = b'[k]) → pad b n len = pad b' n len)
  ∧ (∀ (b : Block) (len : Word), (pad b 0 len).pb1 = none ∧ (pad b 0 len).pb0[0] = 0x80
    ∧ (∀ k, (hk : k < 128) → 1 ≤ k → k < 120 → (pad b 0 len).pb0[k] = 0x00)
    ∧ (∀ k, (hk : k < 128) → 120 ≤ k → (pad b 0 len).pb0[k] = beByte len (k - 120)))

/-- R68: the padded message is a whole number of blocks, one or two more than the full blocks; the terminator
stands at offset `L`; then zeros up to the last 16 bytes, which hold `(8·L) mod 2^64`. The padded message is
the claim's term: `FinalGivesTheMessageDigest` says that the core compresses exactly its blocks. -/
def Obligations.PaddedMessageShape : Prop :=
  ∀ m : List Byte,
    (paddedMessage m).length % 128 = 0
    ∧ (blocksOf (paddedMessage m)).length = m.length / 128 + (if m.length % 128 ≤ 111 then 1 else 2)
    ∧ (paddedMessage m)[m.length]? = some 0x80
    ∧ (∀ k, m.length < k → k + 16 < (paddedMessage m).length → (paddedMessage m)[k]? = some 0x00)
    ∧ (∑ j : Fin 16, ((paddedMessage m).getD ((paddedMessage m).length - 16 + j.val) 0).toNat
        * 2 ^ (8 * (15 - j.val))) = (8 * m.length) % 2 ^ 64
    ∧ (8 * ((paddedMessage m).length - 16)) % 1024 = 896

/-- R69, R70: the schedule has 80 words: byte `8i + k` of the block is byte `k` of `W[i]` counted from the most
significant, and every later word follows the recurrence; the corner cases and the example of R70. -/
def Obligations.ScheduleFramesAndRecurs : Prop :=
  (∀ b : Block, (schedule b).length = 80
    ∧ (∀ i, i < 16 → ∀ k, (hk : 8 * i + k < 128) → k < 8 →
        ((schedule b).getD i 0).extractLsb' (56 - 8 * k) 8 = b[8 * i + k])
    ∧ (∀ t, 16 ≤ t → t < 80 → (schedule b).getD t 0 =
        smallSigma1 ((schedule b).getD (t - 2) 0) + (schedule b).getD (t - 7) 0
          + smallSigma0 ((schedule b).getD (t - 15) 0) + (schedule b).getD (t - 16) 0))
  ∧ (∀ t, t < 80 → (schedule zeroBlock).getD t 0 = 0)
  ∧ (schedule (Vector.replicate 128 0xff)).getD 16 0 = 0x05fffffffffffffc
  ∧ (schedule (Vector.replicate 128 0xff)).getD 17 0 = 0x05fffffffffffffc
  ∧ (schedule (Vector.replicate 128 0xff)).getD 18 0 = 0xd21780bfffffffdd
  ∧ (schedule (Vector.replicate 128 0xff)).getD 19 0 = 0xd21780bfffffffdd
  ∧ (∀ abc : Block, abc = sealBlock (terminate (Vector.ofFn fun k =>
        if k.val = 0 then 0x61 else if k.val = 1 then 0x62 else 0x63) 3) 24 →
      (schedule abc).getD 0 0 = 0x6162638000000000 ∧ (∀ t, 1 ≤ t → t ≤ 14 → (schedule abc).getD t 0 = 0)
      ∧ (schedule abc).getD 15 0 = 0x18 ∧ (schedule abc).getD 16 0 = 0x6162638000000000
      ∧ (schedule abc).getD 17 0 = 0x00030000000000c0 ∧ (schedule abc).getD 18 0 = 0x0a9699a24c700003
      ∧ (schedule abc).getD 79 0 = 0x92aeeed1a7bcf7d2)

/-- R73, R74, R75: the working registers are loaded in the order of `H`; the two temporaries are sums modulo
2^64; every register of a round comes from the values at its start. -/
def Obligations.RoundsUpdateWorkingRegisters : Prop :=
  (∀ h : Vector Word 8, (loadWork h).toVector = h)
  ∧ (∀ (r : Work) (k w : Word),
    (temp1 r k w).toNat
        = (r.h.toNat + (bigSigma1 r.e).toNat + (ch r.e r.f r.g).toNat + k.toNat + w.toNat) % 2 ^ 64
    ∧ (temp2 r).toNat = ((bigSigma0 r.a).toNat + (maj r.a r.b r.c).toNat) % 2 ^ 64
    ∧ round r k w = ⟨temp1 r k w + temp2 r, r.a, r.b, r.c, r.d + temp1 r k w, r.e, r.f, r.g⟩)
  ∧ (loadWork iv).a = 0x6a09e667f3bcc908 ∧ (loadWork iv).e = 0x510e527fade682d1
  ∧ temp1 (loadWork iv) (kAt 0) 0x6162638000000000 = 0xb37b0cfa1b97e8a0
  ∧ temp2 (loadWork iv) = 0x4334c1bea164f555
  ∧ (round (loadWork iv) (kAt 0) 0x6162638000000000).a = 0xf6afceb8bcfcddf5
  ∧ (round (loadWork iv) (kAt 0) 0x6162638000000000).b = 0x6a09e667f3bcc908
  ∧ (round (loadWork iv) (kAt 0) 0x6162638000000000).e = 0x58cb02347ab51f91
  ∧ (round (loadWork iv) (kAt 0) 0x6162638000000000).f = 0x510e527fade682d1

/-- R76, R77: a compression loads the working registers, runs rounds 0 to 79 with `K[t]` and the schedule's
`W[t]`, and adds each register into its word of `H` modulo 2^64. `reg n` stands for the registers before
round `n`. -/
def Obligations.CompressRunsEightyRounds : Prop :=
  (∀ (h : Vector Word 8) (b : Block) (reg : Nat → Work),
    reg 0 = loadWork h →
    (∀ t, t < 80 → reg (t + 1) = round (reg t) (kAt t) ((schedule b).getD t 0)) →
    ∀ i : Fin 8, ((compress h b)[i]).toNat = ((h[i]).toNat + ((reg 80).toVector[i]).toNat) % 2 ^ 64)
  ∧ (compress iv (sealBlock (terminate (Vector.ofFn fun k =>
        if k.val = 0 then 0x61 else if k.val = 1 then 0x62 else 0x63) 3) 24))[0] = 0xddaf35a193617aba

/-- The compressions of 95_test_vectors.md section 5.3: known answers for three blocks from `IV`. -/
def Obligations.CompressKnownAnswers : Prop :=
  compress iv zeroBlock = #v[0xcf7881d5774acbe8, 0x533362e0fbc78070, 0x0267639d87460eda, 0x3086cb40e85931b0,
    0x717dc95288a023a3, 0x96bab2c14ce0b5e0, 0x6fc4fe04eae33e0b, 0x91f4d80cbd668bee]
  ∧ compress iv (Vector.replicate 128 0xff) = #v[0x735853abed200986, 0xbce240ae39514b66, 0xa29990426e1a8fbd,
    0x0ac837a0a52e0ea8, 0xfee8ee0b8cab5205, 0x39a328b4967af0c1, 0x5df8c9151fa46065, 0x7177948afe01e0fd]
  ∧ compress iv (Vector.replicate 128 0x61) = #v[0x03bf7c6e55c11b04, 0x0d48757f45285fdc, 0xed46689bfc9026c0,
    0x281701a1424c80f5, 0xca31738befe6afee, 0x30f5fe8d4e41e248, 0x9379d57c74895af4, 0x4b1e84ebc1bab8b0]

/-! ## Encodings -/

/-- R42, R49: one word of each command, and words with a reserved bit, decode as the rules say. -/
def Obligations.SampleWordsDecode : Prop :=
  decode 0x00000001 = .ok .init ∧ decode 0x00000002 = .ok .block ∧ decode 0x00000303 = .ok (.final 3)
  ∧ decode 0x00007f03 = .ok (.final 127) ∧ decode 0x00008003 = .error .illegal
  ∧ decode 0x00000101 = .error .illegal

/-- R42: decoding and encoding agree on every word and every command: a word decodes to a command exactly when
it is that command's word, `N` at every value. -/
def Obligations.DecodeAndEncodeAgree : Prop :=
  (∀ (v : BitVec 32) (i : Instr), decode v = .ok i ↔ v = encode i)
  ∧ (∀ i : Instr, i.wellFormed = true → decode (encode i) = .ok i)

/-- R41, R42: what every word decodes to; a word spells a command exactly when it is legal, by the formula and field
by field; a write of any other is not executed and raises ILLEGAL_CMD, unless CMD_BUSY comes first. -/
def Obligations.LegalWordsAreTheCommands : Prop :=
  ∀ v : BitVec 32,
    (v = 0x00000001 → decode v = .ok .init) ∧ (v = 0x00000002 → decode v = .ok .block)
    ∧ (v &&& 0xFFFF80FF = 0x00000003 → decode v = .ok (.final (v.extractLsb' 8 7)))
    ∧ ((v = 0x00000001 ∨ v = 0x00000002 ∨ v &&& 0xFFFF80FF = 0x00000003) ↔ legalWord v = true)
    ∧ (decode v = .error .illegal ↔ legalWord v = false)
    ∧ (legalWord v = false → ∀ s : State, s.turn = .host →
        commandWrite v s = .next (withError s (if s.busy then .cmdBusy else .illegalCmd)))

/-- R43, R44, R45: every field of the status word, the reserved bits 0, the reserved codes never read. -/
def Obligations.StatusWordFields : Prop :=
  ∀ s : State,
    s.status.getLsbD 0 = s.busy
    ∧ s.status.getLsbD 1 = ((s.ctrl == .done) && !s.busy && !s.err)
    ∧ s.status.getLsbD 2 = s.err
    ∧ s.status.getLsbD 3 = false
    ∧ s.status.extractLsb' 4 3 = (match s.errcode with
        | .none => 0 | .illegalCmd => 1 | .sequence => 2 | .cmdBusy => 3 | .bufBusy => 4)
    ∧ s.status.getLsbD 7 = false
    ∧ s.status.extractLsb' 8 2 = (match s.ctrl with | .streaming => 0b00 | .finalizing => 0b01 | .done => 0b10)
    ∧ s.status.extractLsb' 10 22 = 0
    ∧ s.status.extractLsb' 4 3 ≤ 4 ∧ s.status.extractLsb' 8 2 ≠ 0b11

/-! ## Host accesses -/

/-- R25, R31: an access the register map lists is served; every other access is a bus error and nothing else. -/
def Obligations.RegisterMapIsExact : Prop :=
  ∀ (s : State) (off : BitVec 8) (n : Nat) (v : Word), s.turn = .host →
    (ReadListed off n → ∃ t, hostRead off n s = .next t)
    ∧ (¬ ReadListed off n → ∃ r, hostRead off n s = .fault (.busRefused r))
    ∧ (WriteListed off n → ∃ t, hostWrite off n v s = .next t)
    ∧ (¬ WriteListed off n → ∃ r, hostWrite off n v s = .fault (.busRefused r))

/-- R24: platform address `CORE_BASE + off` is window offset `off`, and no other address is in the window. -/
def Obligations.PlatformAddressesOfTheWindow : Prop :=
  (∀ off : BitVec 8, platformAddress off = Config.coreBase + off.toNat
    ∧ windowOffset (platformAddress off) = some off)
  ∧ (∀ (addr : Nat) (off : BitVec 8), windowOffset addr = some off → addr = platformAddress off)
  ∧ (∀ addr : Nat, (∀ off : BitVec 8, addr ≠ platformAddress off) → windowOffset addr = none)

/-- R28: a STATUS read returns the status word of the moment, also while busy, and changes nothing else;
a write to it is refused. -/
def Obligations.StatusReadIsExact : Prop :=
  ∀ s : State, hostRead 0x84 4 s = .next { s with reads := s.reads ++ [.w32 s.status] }
    ∧ ∀ n v, ∃ r, hostWrite 0x84 n v s = .fault (.busRefused r)

/-- R29, R30: `H[i]` and `MLEN` are read exactly while `BUSY = 0`; while `BUSY = 1` the read returns some value, which
nothing here constrains. Nothing of the core changes, and writes are refused. -/
def Obligations.DigestAndLengthReads : Prop :=
  ∀ (s : State) (i : Fin 8),
    (s.busy = false →
      hostRead (BitVec.ofNat 8 (0x90 + 8 * i.val)) 8 s = .next { s with reads := s.reads ++ [.w64 s.h[i]] }
      ∧ hostRead 0xD0 8 s = .next { s with reads := s.reads ++ [.w64 s.mlen] })
    ∧ (s.busy = true →
      (∃ t v, hostRead (BitVec.ofNat 8 (0x90 + 8 * i.val)) 8 s = .next t
        ∧ t = { s with reads := s.reads ++ [.w64 v], fresh := t.fresh })
      ∧ (∃ t v, hostRead 0xD0 8 s = .next t ∧ t = { s with reads := s.reads ++ [.w64 v], fresh := t.fresh }))
    ∧ ∀ n v, (∃ r, hostWrite (BitVec.ofNat 8 (0x90 + 8 * i.val)) n v s = .fault (.busRefused r))
      ∧ ∃ r, hostWrite 0xD0 n v s = .fault (.busRefused r)

/-- R26: what a legal `BUF` write stores and marks, byte by byte; that 8 bytes of `v` at offset `8·j` are `W[j]` of the
next schedule, whatever an unmarked byte elsewhere holds; that a busy core stores nothing; and what is refused. -/
def Obligations.BufferWriteStoresBytes : Prop :=
  ∀ (s : State) (off : BitVec 8) (v : Word), Memory.wf s.buf → off.toNat ≤ 0x7F →
    (s.busy = false → ∃ t, hostWrite off 1 v s = .next t ∧ t = { s with buf := t.buf }
      ∧ ∀ a, Memory.read? t.buf a =
        if a = off.toNat then some (v.extractLsb' 0 8) else Memory.read? s.buf a)
    ∧ (s.busy = false → off.toNat % 8 = 0 → ∃ t, hostWrite off 8 v s = .next t ∧ t = { s with buf := t.buf }
      ∧ (∀ a, Memory.read? t.buf a =
        if off.toNat ≤ a ∧ a < off.toNat + 8 then some (v.extractLsb' (56 - 8 * (a - off.toNat)) 8)
        else Memory.read? s.buf a)
      ∧ ∀ d, (schedule (bufBlock t.buf d)).getD (off.toNat / 8) 0 = v)
    ∧ (s.busy = true → hostWrite off 1 v s = .next (withError s .bufBusy)
      ∧ (off.toNat % 8 = 0 → hostWrite off 8 v s = .next (withError s .bufBusy)))
    ∧ (∀ n, n ≠ 1 → n ≠ 8 → ∃ r, hostWrite off n v s = .fault (.busRefused r))
    ∧ (off.toNat % 8 ≠ 0 → ∃ r, hostWrite off 8 v s = .fault (.busRefused r))

/-- R32: a width-8 `BUF` write is the same as eight width-1 writes of its bytes, most significant first. -/
def Obligations.WideWriteIsEightByteWrites : Prop :=
  ∀ (s : State) (off : BitVec 8) (v : Word), off.toNat ≤ 0x7F → off.toNat % 8 = 0 →
    runAccesses [.write off 8 v] s =
      runAccesses ((List.range 8).map fun k =>
        .write (off + BitVec.ofNat 8 k) 1 ((v.extractLsb' (56 - 8 * k) 8).setWidth 64)) s

/-- R34, R89: writes of different bytes may be made in either order, a repeated write of a byte leaves its last
value, and the same value written twice leaves the same state. -/
def Obligations.BufferWritesCommuteAndLastWins : Prop :=
  ∀ (s : State) (a b : BitVec 8) (v w : Word), Memory.wf s.buf → a.toNat ≤ 0x7F → b.toNat ≤ 0x7F →
    (s.busy = false → a ≠ b →
      runAccesses [.write a 1 v, .write b 1 w] s = runAccesses [.write b 1 w, .write a 1 v] s)
    ∧ (s.busy = false → runAccesses [.write a 1 v, .write a 1 w] s = runAccesses [.write a 1 w] s)
    ∧ runAccesses [.write a 1 v, .write a 1 v] s = runAccesses [.write a 1 v] s
    ∧ ∃ t, runAccesses [.write a 1 v, .write b 1 w] s = .next t

/-- R47, R48: `init`, `block` and `final n` stand for one CMD write each, whose word is that command's; the
other pseudo-instructions for the reads and byte writes of their rows. The clauses on `st.text` and `st.fill` also
run over lines whose operands do not fit (`AsmLine.wellFormed` refuses them): what they say of those, the offset
modulo 256 and the value modulo 2^64, is the model's choice (log entry 27), no rule of the spec. -/
def Obligations.PseudoInstructionsExpand : Prop :=
  (∃ v, AsmLine.init.expand = [.access (.write 0x80 4 v)] ∧ decode (v.extractLsb' 0 32) = .ok .init)
  ∧ (∃ v, AsmLine.block.expand = [.access (.write 0x80 4 v)] ∧ decode (v.extractLsb' 0 32) = .ok .block)
  ∧ (∀ n : BitVec 7, ∃ v, (AsmLine.final n.toNat).expand = [.access (.write 0x80 4 v)]
      ∧ decode (v.extractLsb' 0 32) = .ok (.final n))
  ∧ AsmLine.ldStatus.expand = [.access (.read 0x84 4)]
  ∧ (∀ i : Fin 8, (AsmLine.ldH i.val).expand = [.access (.read (BitVec.ofNat 8 (0x90 + 8 * i.val)) 8)])
  ∧ AsmLine.ldMlen.expand = [.access (.read 0xD0 8)] ∧ AsmLine.wait.expand = [.wait]
  ∧ (∀ off text, (AsmLine.stText off text).expand = (List.range text.length).map fun k =>
      .access (.write (BitVec.ofNat 8 (off + k)) 1 (BitVec.ofNat 64 (text.getD k 'a').toNat)))
  ∧ (∀ off m v, (AsmLine.stFill off m v).expand
      = (List.range m).map fun k => .access (.write (BitVec.ofNat 8 (off + k)) 1 (BitVec.ofNat 64 v)))

/-! ## Acceptance of commands -/

/-- R80: a CMD write, test by test in the rule's order. -/
def Obligations.CommandWriteFollowsTheTests : Prop :=
  ∀ (s : State) (v : Word), s.turn = .host →
    (s.busy = true → hostWrite 0x80 4 v s = .next (withError s .cmdBusy))
    ∧ (s.busy = false → decode (v.extractLsb' 0 32) = .error .illegal →
        hostWrite 0x80 4 v s = .next (withError s .illegalCmd))
    ∧ (s.busy = false → decode (v.extractLsb' 0 32) = .ok .init →
        hostWrite 0x80 4 v s = .next { s with pend := some .init, busy := true })
    ∧ (s.busy = false → (decode (v.extractLsb' 0 32) = .ok .block
          ∨ ∃ n, decode (v.extractLsb' 0 32) = .ok (.final n)) →
        (s.err = true → hostWrite 0x80 4 v s = .next s)
        ∧ (s.err = false → s.ctrl = .done → hostWrite 0x80 4 v s = .next (withError s .sequence)))
    ∧ (s.busy = false → s.err = false → s.ctrl ≠ .done → decode (v.extractLsb' 0 32) = .ok .block →
        hostWrite 0x80 4 v s = .next { s with pend := some .block, busy := true })
    ∧ (∀ n, s.busy = false → s.err = false → s.ctrl ≠ .done → decode (v.extractLsb' 0 32) = .ok (.final n) →
        hostWrite 0x80 4 v s
          = .next { s with pend := some (.final n), busy := true, ctrl := .finalizing })

/-- R81: INIT is accepted in any STATE and whatever ERR holds while `BUSY = 0`, writing PEND and BUSY only. -/
def Obligations.InitAcceptance : Prop :=
  ∀ s : State, s.turn = .host →
    commandWrite 0x00000001 s = exec .init s
    ∧ (s.busy = false → exec .init s = .next { s with pend := some .init, busy := true })
    ∧ (s.busy = true → exec .init s = .next (withError s .cmdBusy))
    ∧ (∀ v : BitVec 32, s.busy = false → fieldOp v = 1 → v ≠ 0x00000001 →
        commandWrite v s = .next (withError s .illegalCmd))
    ∧ (s.status = 0x00000202 → ∃ t, exec .init s = .next t ∧ t.status = 0x00000201)

/-- R83: BLOCK is accepted in STREAMING with `BUSY = 0` and `ERR = 0`, STATE staying STREAMING, and turned away
as the rule says otherwise; STATE cannot be FINALIZING there, by the invariant. -/
def Obligations.BlockAcceptance : Prop :=
  (∀ s : State, s.turn = .host →
    commandWrite 0x00000002 s = exec .block s
    ∧ (s.busy = false → s.err = false → s.ctrl = .streaming →
      exec .block s = .next { s with pend := some .block, busy := true })
    ∧ (s.busy = true → exec .block s = .next (withError s .cmdBusy))
    ∧ (∀ v : BitVec 32, s.busy = false → fieldOp v = 2 → v ≠ 0x00000002 →
        commandWrite v s = .next (withError s .illegalCmd))
    ∧ (s.busy = false → s.err = true → exec .block s = .next s)
    ∧ (s.busy = false → s.err = false → s.ctrl = .done → exec .block s = .next (withError s .sequence)))
  ∧ (∀ s : State, Inv s → s.busy = false → s.ctrl ≠ .finalizing)
  ∧ (∃ t, commandWrite 0x00000002 State.reset = .next t ∧ t.status = 0x00000001)

/-- R85: FINAL n, for every `n`, is accepted in STREAMING with `BUSY = 0` and `ERR = 0`, STATE becoming
FINALIZING, and turned away as the rule says otherwise. -/
def Obligations.FinalAcceptance : Prop :=
  (∀ (s : State) (n : BitVec 7), s.turn = .host →
    commandWrite (0x00000003 + n.setWidth 32 * 256) s = exec (.final n) s
    ∧ (s.busy = false → s.err = false → s.ctrl = .streaming →
      exec (.final n) s = .next { s with pend := some (.final n), busy := true, ctrl := .finalizing })
    ∧ (s.busy = true → exec (.final n) s = .next (withError s .cmdBusy))
    ∧ (∀ v : BitVec 32, s.busy = false → fieldOp v = 3 → (v &&& 0xFFFF80FF ≠ 0x00000003) →
        commandWrite v s = .next (withError s .illegalCmd))
    ∧ (s.busy = false → s.err = true → exec (.final n) s = .next s)
    ∧ (s.busy = false → s.err = false → s.ctrl = .done →
        exec (.final n) s = .next (withError s .sequence)))
  ∧ (∃ t, commandWrite 0x00000303 State.reset = .next t ∧ t.status = 0x00000101)

/-- R95: an interface error sets ERR and ERRCODE when `ERR = 0`, and changes nothing when `ERR = 1`. -/
def Obligations.FirstErrorIsKept : Prop :=
  ∀ (s : State) (code : ErrCode),
    (s.err = false → s.raiseIfErr code = { s with err := true, errcode := code })
    ∧ (s.err = true → s.raiseIfErr code = s)

/-- R96, R97, R98: the causes of ILLEGAL_CMD, SEQUENCE and CMD_BUSY on a CMD write, from `ERR = 0`, with the
code that STATUS then shows and nothing else changed. -/
def Obligations.CommandErrorsAndTheirCodes : Prop :=
  ∀ (s : State) (v : BitVec 32), s.turn = .host → s.err = false →
    (s.busy = false → decode v = .error .illegal →
      ∃ t, commandWrite v s = .next t ∧ t = { s with err := true, errcode := .illegalCmd }
        ∧ t.status.extractLsb' 4 3 = 1)
    ∧ (s.busy = false → s.ctrl = .done → (decode v = .ok .block ∨ ∃ n, decode v = .ok (.final n)) →
      ∃ t, commandWrite v s = .next t ∧ t = { s with err := true, errcode := .sequence }
        ∧ t.status.extractLsb' 4 3 = 2)
    ∧ (s.busy = true →
      ∃ t, commandWrite v s = .next t ∧ t = { s with err := true, errcode := .cmdBusy }
        ∧ t.status.extractLsb' 4 3 = 3)

/-- R99, R102: a legal `BUF` write while busy stores nothing and marks nothing; the error leaves `ERR = 1`, the
first code and `DVALID = 0` and everything else as it was. -/
def Obligations.BusyBufferWriteIsDropped : Prop :=
  ∀ (s : State) (off : BitVec 8) (n : Nat) (v : Word), s.busy = true → off.toNat ≤ 0x7F →
    (n = 1 ∨ (n = 8 ∧ off.toNat % 8 = 0)) →
    ∃ t, hostWrite off n v s = .next t ∧ t = { s with err := true, errcode := t.errcode }
      ∧ t.errcode = (if s.err then s.errcode else .bufBusy) ∧ t.dvalid = false

/-- The frame of the acceptance of INIT, BLOCK and FINAL n: `H`, `MLEN`, every byte of `BUF`, the internal state and
the host's side are unchanged, and the flags not written keep their values. That the internal state keeps its value is
the model's choice (log entry 8): R20 and U5 leave it any value outside a compression. The host's side and the draw
counter are the model's own fields (log entries 1, 2, 6). -/
def Obligations.AcceptanceFrame : Prop :=
  ∀ (i : Instr) (s t : State), s.turn = .host → exec i s = .next t →
    t.h = s.h ∧ t.mlen = s.mlen ∧ SameBytes s t ∧ t.scratch = s.scratch ∧ t.fresh = s.fresh
    ∧ SameHostSide s t
    ∧ (s.err = true → t.err = true ∧ t.errcode = s.errcode)
    ∧ (s.busy = true → t.busy = true ∧ t.pend = s.pend ∧ t.ctrl = s.ctrl)
    ∧ ((∀ n, i ≠ .final n) → t.ctrl = s.ctrl)

/-! ## Completion of commands -/

/-- R82: INIT's completion, from every state: the reset state but for `BUF` and WR (and the internal state, R23),
and the same again when it is repeated. -/
def Obligations.InitCompletion : Prop :=
  (∀ s : State, s.turn = .core →
    ∃ t, exec .init s = .next t
      ∧ (∀ i : Fin 8, t.h[i] = iv[i]) ∧ t.mlen = 0 ∧ t.ctrl = .streaming ∧ t.err = false ∧ t.errcode = .none
      ∧ t.pend = none ∧ t.busy = false ∧ SameBytes s t
      ∧ exec .init t = .next t
      ∧ t.h = State.reset.h ∧ t.mlen = State.reset.mlen ∧ t.ctrl = State.reset.ctrl ∧ t.err = State.reset.err
      ∧ t.errcode = State.reset.errcode ∧ t.pend = State.reset.pend ∧ t.busy = State.reset.busy
      ∧ t.status = 0x00000000 ∧ t.h[0] = 0x6a09e667f3bcc908)

/-- R84: BLOCK's completion, when `BUF` holds the bytes of `B`: one compression and 1024 more bits, `BUF` kept; a
model fault when a byte is unmarked; the wrap of MLEN and the rule's example. -/
def Obligations.BlockCompletion : Prop :=
  (∀ (s : State) (b : Block), s.turn = .core →
    (∀ k, (hk : k < 128) → Memory.read? s.buf k = some b[k]) →
    ∃ t, exec .block s = .next t ∧ t.mlen = s.mlen + 1024 ∧ t.h = compress s.h b
      ∧ t.pend = none ∧ t.busy = false ∧ t.ctrl = s.ctrl ∧ t.err = s.err ∧ t.errcode = s.errcode
      ∧ SameBytes s t ∧ (s.mlen.toNat = 2 ^ 64 - 1024 → t.mlen = 0))
  ∧ (∀ s : State, s.turn = .core → (∃ k, k < 128 ∧ Memory.read? s.buf k = none) →
    exec .block s = .fault .unwrittenBufByte)
  ∧ (∃ t, exec .block { State.reset with
        turn := .core
        busy := true
        pend := some .block
        buf := (List.range 128).map fun k => (k, 0x00) } = .next t
      ∧ t.h[0] = 0xcf7881d5774acbe8 ∧ t.mlen = 0x400)

/-- R86: FINAL n's completion, for every `n`, when `BUF[0..n)` holds the first bytes of `B`: MLEN grows by `8·n`, the
padded block and the synthetic block when there is one are compressed with the new MLEN as the trailer, every
byte of `BUF` is unmarked, STATE is DONE; a model fault when one of the `n` bytes is unmarked; the rule's example. -/
def Obligations.FinalCompletion : Prop :=
  (∀ (s : State) (n : BitVec 7) (b : Block), s.turn = .core →
    (∀ k, (hk : k < 128) → k < n.toNat → Memory.read? s.buf k = some b[k]) →
    ∃ t, exec (.final n) s = .next t ∧ t.mlen = s.mlen + BitVec.ofNat 64 (8 * n.toNat)
      ∧ ((pad b n.toNat t.mlen).pb1 = none → t.h = compress s.h (pad b n.toNat t.mlen).pb0)
      ∧ (∀ p, (pad b n.toNat t.mlen).pb1 = some p →
          t.h = compress (compress s.h (pad b n.toNat t.mlen).pb0) p)
      ∧ (∀ a, Memory.read? t.buf a = none) ∧ t.ctrl = .done ∧ t.pend = none ∧ t.busy = false
      ∧ t.err = s.err ∧ t.errcode = s.errcode ∧ t.dvalid = !s.err)
  ∧ (∀ (s : State) (n : BitVec 7), s.turn = .core → (∃ k, k < n.toNat ∧ Memory.read? s.buf k = none) →
    exec (.final n) s = .fault .unwrittenBufByte)
  ∧ (∃ t, exec (.final 3) { State.reset with
        turn := .core
        busy := true
        pend := some (.final 3)
        ctrl := .finalizing
        buf := [(0, 0x61), (1, 0x62), (2, 0x63)] } = .next t
      ∧ t.h[0] = 0xddaf35a193617aba ∧ t.mlen = 0x18 ∧ t.status = 0x00000202)

/-- R105: a completion that reads an unmarked byte of `BUF`, and only such a completion, is the model fault. -/
def Obligations.UnwrittenByteIsAFault : Prop :=
  ∀ (s : State) (n : BitVec 7), s.turn = .core →
    (exec .block s = .fault .unwrittenBufByte ↔ ∃ k, k < 128 ∧ Memory.read? s.buf k = none)
    ∧ (exec (.final n) s = .fault .unwrittenBufByte ↔ ∃ k, k < n.toNat ∧ Memory.read? s.buf k = none)

/-- The frame of the completions: INIT keeps `BUF`, the internal state and the host's side; BLOCK keeps STATE, ERR,
ERRCODE, every byte of `BUF` and the host's side; FINAL n keeps ERR, ERRCODE and the host's side. That INIT keeps the internal state is the model's choice
(log entry 8). -/
def Obligations.CompletionFrame : Prop :=
  ∀ s t : State, s.turn = .core →
    (exec .init s = .next t → SameBytes s t ∧ t.scratch = s.scratch ∧ t.fresh = s.fresh ∧ SameHostSide s t)
    ∧ (exec .block s = .next t →
      t.ctrl = s.ctrl ∧ t.err = s.err ∧ t.errcode = s.errcode ∧ SameBytes s t ∧ SameHostSide s t)
    ∧ (∀ n, exec (.final n) s = .next t → t.err = s.err ∧ t.errcode = s.errcode ∧ SameHostSide s t)

/-- R86, R89: what FINAL n leaves in `H` and MLEN depends on `H`, MLEN and `BUF[0..n)` alone: not on the other bytes, the
internal state, the flags, or any free value. -/
def Obligations.FinalDependsOnlyOnValidBytes : Prop :=
  ∀ (s u t : State) (n : BitVec 7), s.turn = .core → u.turn = .core → s.h = u.h → s.mlen = u.mlen →
    (∀ k, k < n.toNat → Memory.read? s.buf k = Memory.read? u.buf k) →
    exec (.final n) s = .next t → ∃ t', exec (.final n) u = .next t' ∧ t'.h = t.h ∧ t'.mlen = t.mlen

/-! ## Whole messages -/

/-- R82, R88: after INIT's completion the core stands for the empty message. -/
def Obligations.InitStartsAMessage : Prop :=
  StandsFor State.reset [] ∧
  ∀ s : State, s.turn = .core → ∃ t, exec .init s = .next t ∧ StandsFor t []

/-- R84, R88: a BLOCK extends the message the core stands for by the 128 bytes in `BUF`. -/
def Obligations.BlockExtendsTheMessage : Prop :=
  ∀ (s : State) (m bytes : List Byte), s.turn = .core → StandsFor s m → bytes.length = 128 → Holds s bytes →
    ∃ t, exec .block s = .next t ∧ StandsFor t (m ++ bytes)

/-- R86, R88: a FINAL n ends the message with the `n` bytes in `BUF`: `H` is then the padded message's blocks compressed
in turn from `IV`, for every length of message, and MLEN the bit count modulo 2^64. -/
def Obligations.FinalGivesTheMessageDigest : Prop :=
  ∀ (s : State) (m bytes : List Byte) (n : BitVec 7), s.turn = .core → StandsFor s m →
    bytes.length = n.toNat → Holds s bytes →
    ∃ t, exec (.final n) s = .next t ∧ t.h = messageDigest (m ++ bytes)
      ∧ t.mlen = BitVec.ofNat 64 (8 * (m ++ bytes).length) ∧ t.ctrl = .done
      ∧ (s.err = false → s.errcode = .none → t.status = 0x00000202)

/-! ## The step -/

/-- R27, R79, R80: on the host's turn, a CMD write of a word that decodes to `i` runs `i`. How a turn and a line are held,
and that `withFetchWord` places the word, is the model's choice (log entries 1, 2, 3). -/
def Obligations.StepRunsTheWrittenCommand : Prop :=
  (∀ (s : State) (v : Word) (i : Instr) (rest : List HostOp), s.nextTurn = .agent .host →
    s.host = .access (.write 0x80 4 v) :: rest → decode (v.extractLsb' 0 32) = .ok i →
    step s = exec i { s with sched := s.sched.tail, host := rest, turn := .host })
  ∧ (∀ (s : State) (w : Nat) (i : Instr), decodeTableWord 32 w = some i →
    step (s.withFetchWord 32 w) = exec i { s with turn := .host })

/-- R79: on the core's turn, the command in flight runs to its completion; that a turn of the core while
`BUSY = 0` changes nothing but the order and the turn is the model's choice (log entry 10), no rule of the spec. How the
order and the turn are held is the model's too (log entries 1, 2). -/
def Obligations.StepCompletesTheCommandInFlight : Prop :=
  (∀ (s : State) (i : Instr), s.nextTurn = .agent .core → s.busy = true → s.pend = some i →
    step s = exec i { s with sched := s.sched.tail, turn := .core })
  ∧ (∀ s : State, s.nextTurn = .agent .core → s.busy = false →
    step s = .next { s with sched := s.sched.tail, turn := .core })

/-- R79: the host's other turns: an access is served with its line gone. That `wait` is one STATUS read a turn, recorded
as any read, and stays while bit 0 is 1 is DEDUCED from R48 (log entry 24); that a host that has run its last line takes
turns that do nothing is the model's choice (log entry 14). How the order, the turn and the values read are held is the
model's too (log entries 1, 2). -/
def Obligations.StepServesTheHost : Prop :=
  ∀ s : State, s.nextTurn = .agent .host →
    (∀ a rest, s.host = .access a :: rest →
      step s = hostAccess a { s with sched := s.sched.tail, host := rest, turn := .host })
    ∧ (∀ rest, s.host = .wait :: rest →
      step s = .next { s with
        sched := s.sched.tail
        turn := .host
        reads := s.reads ++ [.w32 s.status]
        host := if s.busy then .wait :: rest else rest })
    ∧ (s.host = [] → step s = .next { s with sched := s.sched.tail, turn := .host })

/-- R110: the reset event, from every state, also while busy, puts the core's state to its reset values; the internal
state, which R23 leaves unspecified, is free. -/
def Obligations.ResetEventRestoresResetValues : Prop :=
  ∀ s : State, s.nextTurn = .reset →
    ∃ t, step s = .next t ∧ t.h = iv ∧ t.mlen = 0 ∧ t.ctrl = .streaming ∧ t.busy = false ∧ t.err = false
      ∧ t.errcode = .none ∧ t.pend = none ∧ (∀ a, Memory.read? t.buf a = none)

/-- R111: after reset STATUS is 0 and the first command may be BLOCK or FINAL directly. -/
def Obligations.ResetIsIdleAndReady : Prop :=
  State.reset.status = 0x00000000 ∧ State.reset.h = iv ∧ State.reset.mlen = 0 ∧ State.reset.pend = none
  ∧ (∀ a, Memory.read? State.reset.buf a = none)
  ∧ (∀ i : Instr, ∃ t, commandWrite (encode i) State.reset = .next t
      ∧ t.busy = true ∧ t.pend = some i ∧ t.err = false)

/-! ## Invariants and rules of the whole machine -/

/-- The invariant holds at reset. -/
def Obligations.InvariantAtReset : Prop := Inv State.reset

/-- R15, R16, R17, R18, R22: every step keeps the invariant: the memory's canonical form, PEND against BUSY, FINALIZING
against a FINAL in flight, ERRCODE against ERR, MLEN a whole number of bytes and, until DONE, of blocks. -/
def Obligations.InvariantIsKept : Prop :=
  ∀ s t : State, Inv s → step s = .next t → Inv t

/-- R93: no step of any kind takes STATE and BUSY anywhere but along a row of the transition table. -/
def Obligations.TransitionsAreTheTable : Prop :=
  ∀ s t : State, Inv s → step s = .next t → Transition s t

/-- R13, R14, R18: `H` and MLEN change only by the completion of the command in flight or by reset; `BUF` only by a host's
`BUF` write while `BUSY = 0`, by a FINAL's completion or by reset. -/
def Obligations.OnlyTheRulesWritersWrite : Prop :=
  ∀ s t : State, step s = .next t →
    (t.h ≠ s.h ∨ t.mlen ≠ s.mlen →
      s.nextTurn = .reset ∨ (s.nextTurn = .agent .core ∧ s.busy = true ∧ s.pend ≠ none))
    ∧ (t.buf ≠ s.buf → s.nextTurn = .reset
      ∨ (s.nextTurn = .agent .core ∧ s.busy = true ∧ ∃ n, s.pend = some (.final n))
      ∨ (s.nextTurn = .agent .host ∧ s.busy = false
          ∧ ∃ off n v rest, s.host = .access (.write off n v) :: rest ∧ off.toNat ≤ 0x7F))

/-- R35: while a command is in flight, a host step changes none of what the command reads or is: it reads `BUF` as it was
at acceptance. -/
def Obligations.HostCannotReachTheCommandInFlight : Prop :=
  ∀ s t : State, s.busy = true → s.nextTurn = .agent .host → step s = .next t →
    t.buf = s.buf ∧ t.h = s.h ∧ t.mlen = s.mlen ∧ t.ctrl = s.ctrl ∧ t.pend = s.pend ∧ t.busy = true

/-- R103: ERR and ERRCODE, once set, are kept by every step but INIT's completion and reset, which clear them. -/
def Obligations.ErrorsAreSticky : Prop :=
  ∀ s t : State, s.err = true → step s = .next t →
    (s.nextTurn = .reset ∨ (s.nextTurn = .agent .core ∧ s.busy = true ∧ s.pend = some .init)
      → t.err = false ∧ t.errcode = .none)
    ∧ (¬ (s.nextTurn = .reset ∨ (s.nextTurn = .agent .core ∧ s.busy = true ∧ s.pend = some .init))
      → t.err = true ∧ t.errcode = s.errcode)

/-- R100: a BLOCK or FINAL word written while `ERR = 1` and `BUSY = 0` changes nothing; while `ERR = 1` no step accepts
one, an idle core's `H` is kept until reset, and DVALID is 0 in every next state. -/
def Obligations.NoBlockAfterAnError : Prop :=
  (∀ (s : State) (v : BitVec 32), s.turn = .host → s.busy = false → s.err = true →
    (decode v = .ok .block ∨ ∃ n, decode v = .ok (.final n)) → commandWrite v s = .next s)
  ∧ ∀ s t : State, s.err = true → step s = .next t →
    (s.busy = false → t.busy = true → t.pend = some .init)
    ∧ (s.busy = false → t.h ≠ s.h → s.nextTurn = .reset)
    ∧ t.dvalid = false

/-- R43, R115: DVALID becomes 1 only by a FINAL's completion with `ERR = 0`. The invariant rules out a BLOCK in
flight in DONE. -/
def Obligations.DigestBecomesValidOnlyByFinal : Prop :=
  ∀ s t : State, Inv s → step s = .next t → s.dvalid = false → t.dvalid = true →
    s.nextTurn = .agent .core ∧ s.busy = true ∧ s.err = false ∧ ∃ n, s.pend = some (.final n)

/-- R90: no host step disables the completion of the command in flight: after any number of host turns, the core's turn
ends it, unless the run stops on a model fault. That the core's turn comes is R90's weak fairness (log entry 20), and
how the order is held is the model's choice (log entry 2). -/
def Obligations.AcceptedCommandCompletes : Prop :=
  ∀ (k : Nat) (s : State) (rest : List Turn), Inv s → s.busy = true →
    s.sched = List.replicate k (.agent .host) ++ .agent .core :: rest →
    (∃ t, Host.Core.run Sys2Proof.core (k + 1) s = .next t ∧ t.busy = false ∧ t.pend = none ∧ t.sched = rest)
    ∨ (∃ r, Host.Core.run Sys2Proof.core (k + 1) s = .fault r)

/-- R20, R21, R22: no rule reads the working registers, the schedule, the padder's blocks or the round index outside a
command: two states that differ in them alone step alike, up to them. -/
def Obligations.InternalStateIsNeverRead : Prop :=
  ∀ (s : State) (x : Scratch),
    match step s with
    | .next t => ∃ y, step { s with scratch := x } = .next { t with scratch := y }
    | .fault r => step { s with scratch := x } = .fault r
    | .refused r => step { s with scratch := x } = .refused r
end

