-- ==== Sys2Proof/Laws/Datapath.lean ====
section
/-! SUPPORT. The laws of the datapath's building blocks: bits of big-endian words and bytes, bytes of the
padder's two operations, and what extending a schedule keeps. -/

namespace Sys2Proof.Machine

@[simp] theorem buildBlock_getElem (f : Fin 128 → Byte) (k : Nat) (hk : k < 128) :
    (buildBlock f)[k] = f ⟨k, hk⟩ := by
  unfold buildBlock; exact Vector.getElem_ofFn hk

@[simp] theorem xor3_getLsbD (u v w : Word) (i : Nat) :
    (xor3 u v w).getLsbD i = ((u.getLsbD i ^^ v.getLsbD i) ^^ w.getLsbD i) := by simp [xor3]

/-- Bit `i` of a big-endian word is bit `i mod 8` of byte `7 − i / 8`. -/
theorem beWord_getLsbD (b : Fin 8 → Byte) (i : Nat) (hi : i < 64) :
    (beWord b).getLsbD i = (b ⟨7 - i / 8, by omega⟩).getLsbD (i % 8) := by
  have at_byte : ∀ (j : Nat) (hj : j < 8), i / 8 = 7 - j →
      (beWord b).getLsbD i = (b ⟨j, hj⟩).getLsbD (i % 8) := by
    intro j hj h
    unfold beWord
    simp only [BitVec.getLsbD_append]
    rcases j with _ | _ | _ | _ | _ | _ | _ | _ | j
    all_goals first | omega | skip
    all_goals (repeat' (first | rw [if_pos (by omega)] | rw [if_neg (by omega)]))
    all_goals (congr 1; omega)
  exact at_byte (7 - i / 8) (by omega) (by omega)

/-- Bit `i` of byte `k` of `BEBYTES(v)`. -/
theorem beByte_getLsbD (v : Word) (k i : Nat) (hi : i < 8) :
    (beByte v k).getLsbD i = v.getLsbD (56 - 8 * k + i) := by
  simp [beByte, hi]

@[simp] theorem beBytes_length (v : Word) : (beBytes v).length = 8 := by simp [beBytes]

@[simp] theorem terminate_getElem (b : Block) (n k : Nat) (hk : k < 128) :
    (terminate b n)[k] = if k < n then b[k] else if k = n then 0x80 else 0x00 := by
  simp [terminate]

@[simp] theorem sealBlock_getElem (b : Block) (len : Word) (k : Nat) (hk : k < 128) :
    (sealBlock b len)[k] = if 120 ≤ k then beByte len (k - 120) else b[k] := by
  simp [sealBlock]

@[simp] theorem zeroBlock_getElem (k : Nat) (hk : k < 128) : zeroBlock[k] = 0x00 := by simp [zeroBlock]

theorem pad_of_le (b : Block) {n : Nat} (len : Word) (h : n ≤ 111) :
    pad b n len = ⟨sealBlock (terminate b n) len, none⟩ := by simp [pad, h]

theorem pad_of_gt (b : Block) {n : Nat} (len : Word) (h : 112 ≤ n) :
    pad b n len = ⟨terminate b n, some (sealBlock zeroBlock len)⟩ := by
  simp [pad, show ¬ n ≤ 111 by omega]

@[simp] theorem extend_length (n : Nat) (ws : List Word) : (extend n ws).length = ws.length + n := by
  induction n generalizing ws with
  | zero => rfl
  | succ n ih => simp [extend, ih]; omega

/-- Extending a schedule keeps the words it had. -/
theorem extend_getD_of_lt (n : Nat) (ws : List Word) (t : Nat) (h : t < ws.length) :
    (extend n ws).getD t 0 = ws.getD t 0 := by
  induction n generalizing ws with
  | zero => rfl
  | succ n ih =>
    rw [extend, ih _ (by simp; omega), List.getD_eq_getElem?_getD, List.getElem?_append_left h,
      ← List.getD_eq_getElem?_getD]

theorem schedule_eq (b : Block) :
    schedule b = extend 64 ((List.finRange 16).map (frameWord b)) := by unfold schedule; rfl

@[simp] theorem rounds_zero (ws : List Word) (r : Work) : rounds ws r 0 = r := rfl

theorem rounds_succ (ws : List Word) (r : Work) (n : Nat) :
    rounds ws r (n + 1) = round (rounds ws r n) (kAt n) (ws.getD n 0) := rfl

theorem compress_eq (h : Vector Word 8) (b : Block) :
    compress h b = feedForward h (rounds (schedule b) (loadWork h) 80) := by unfold compress; rfl

/-- `K[t]` stands in row `r` and column `c` of the rule's table, for `t = r + 20 · c` (R60). -/
theorem kAt_of_row {r c : Nat} {row : Vector Word 4} (hr : r < 20) (hc : c < 4) (h : kRows[r]? = some row) :
    kAt (r + 20 * c) = row[c] := by
  simp [kAt, show (r + 20 * c) % 20 = r by omega, show (r + 20 * c) / 20 = c by omega, h, hc]

/-- A word of a compression's result. -/
theorem compress_getElem (h : Vector Word 8) (b : Block) (i : Nat) (hi : i < 8) :
    (compress h b)[i] = h[i] + (rounds (schedule b) (loadWork h) 80).toVector[i] := by
  simp [compress_eq, feedForward]

end Sys2Proof.Machine
end

