-- ==== Sys2Proof/Laws/Memory.lean ====
section
/-! SUPPORT. The laws of the block buffer as a list of cells: read after write, the canonical form kept,
and equality of canonical memories byte by byte. -/

namespace Sys2Proof.Machine

@[simp] theorem Memory.read?_nil (a : Nat) : Memory.read? [] a = none := rfl

theorem Memory.wf_nil : Memory.wf [] := by simp [Memory.wf]

/-- Every byte after a write of one byte. -/
@[simp] theorem Memory.read?_write (m : List Host.Cell) (k : Nat) (b : Byte) (a : Nat)
    (h : m.Pairwise fun c d => c.1 < d.1) :
    Memory.read? (Memory.write m k b) a = if a = k then some b else Memory.read? m a := by
  induction m with
  | nil => simp [Memory.write, Memory.read?, eq_comm]
  | cons c m ih =>
    have hm := (List.pairwise_cons.mp h).2
    simp only [Memory.write]
    split
    · simp only [Memory.read?, ih hm]; split <;> grind
    · split <;> simp only [Memory.read?] <;> split <;> grind

/-- The offsets of a memory after a write: the old ones and the new one. -/
theorem Memory.mem_write {m : List Host.Cell} {k : Nat} {b : Byte} {c : Host.Cell}
    (h : c ∈ Memory.write m k b) : c = (k, b) ∨ c ∈ m := by
  induction m with
  | nil => simpa [Memory.write] using h
  | cons d m ih =>
    simp only [Memory.write] at h
    split at h
    · rcases List.mem_cons.mp h with rfl | h
      · simp
      · rcases ih h with h | h <;> simp [h]
    · split at h <;> rcases List.mem_cons.mp h with rfl | h <;> simp_all

theorem Memory.pairwise_write {m : List Host.Cell} (k : Nat) (b : Byte)
    (h : m.Pairwise fun c d => c.1 < d.1) :
    (Memory.write m k b).Pairwise fun c d => c.1 < d.1 := by
  induction m with
  | nil => simp [Memory.write]
  | cons c m ih =>
    obtain ⟨hc, hm⟩ := List.pairwise_cons.mp h
    simp only [Memory.write]
    split
    · refine List.pairwise_cons.mpr ⟨fun d hd => ?_, ih hm⟩
      rcases Memory.mem_write hd with rfl | hd
      · assumption
      · exact hc d hd
    · split
      · exact List.pairwise_cons.mpr ⟨fun d hd => by have := hc d hd; simp only; omega, hm⟩
      · refine List.pairwise_cons.mpr ⟨fun d hd => ?_, h⟩
        rcases List.mem_cons.mp hd with rfl | hd
        · simp only; omega
        · have := hc d hd; simp only; omega

/-- A write inside `BUF` keeps the canonical form. -/
theorem Memory.wf_write {m : List Host.Cell} {k : Nat} (b : Byte) (h : Memory.wf m) (hk : k < 128) :
    Memory.wf (Memory.write m k b) :=
  ⟨Memory.pairwise_write k b h.1, fun c hc => by
    rcases Memory.mem_write hc with rfl | hc
    · exact hk
    · exact h.2 c hc⟩

theorem Memory.pairwise_writeBytes {m : List Host.Cell} (k : Nat) (bs : List Byte)
    (h : m.Pairwise fun c d => c.1 < d.1) :
    (Memory.writeBytes m k bs).Pairwise fun c d => c.1 < d.1 := by
  induction bs generalizing m k with
  | nil => exact h
  | cons b bs ih => exact ih (k + 1) (Memory.pairwise_write k b h)

/-- A run of bytes inside `BUF` keeps the canonical form. -/
theorem Memory.wf_writeBytes {m : List Host.Cell} {k : Nat} (bs : List Byte) (h : Memory.wf m)
    (hk : k + bs.length ≤ 128) : Memory.wf (Memory.writeBytes m k bs) := by
  induction bs generalizing m k with
  | nil => exact h
  | cons b bs ih =>
    simp only [List.length_cons] at hk
    exact ih (Memory.wf_write b h (by omega)) (by omega)

theorem Memory.writeBytes_append (m : List Host.Cell) (k : Nat) (bs cs : List Byte) :
    Memory.writeBytes m k (bs ++ cs) = Memory.writeBytes (Memory.writeBytes m k bs) (k + bs.length) cs := by
  induction bs generalizing m k with
  | nil => rfl
  | cons b bs ih => simp [Memory.writeBytes, ih, Nat.add_assoc, Nat.add_comm 1]

/-- Every byte after a run of bytes is written at offset `k`. -/
@[simp] theorem Memory.read?_writeBytes (m : List Host.Cell) (k : Nat) (bs : List Byte) (a : Nat)
    (h : m.Pairwise fun c d => c.1 < d.1) :
    Memory.read? (Memory.writeBytes m k bs) a =
      if k ≤ a ∧ a < k + bs.length then bs[a - k]? else Memory.read? m a := by
  induction bs generalizing m k with
  | nil => simp [Memory.writeBytes, Nat.not_lt.mpr]
  | cons b bs ih =>
    simp only [Memory.writeBytes, ih _ _ (Memory.pairwise_write k b h), Memory.read?_write m k b a h,
      List.length_cons]
    by_cases h1 : k + 1 ≤ a ∧ a < k + 1 + bs.length
    · have : a - k = (a - (k + 1)) + 1 := by omega
      rw [if_pos h1, if_pos (by omega), this, List.getElem?_cons_succ]
    · by_cases h2 : a = k
      · subst h2; simp
      · rw [if_neg h1, if_neg h2, if_neg (by omega)]

theorem Memory.read?_of_lt {m : List Host.Cell} {a : Nat} (h : ∀ c ∈ m, a < c.1) :
    Memory.read? m a = none := by
  induction m with
  | nil => rfl
  | cons c m ih =>
    have := h c (by simp)
    rw [Memory.read?, if_neg (by omega), ih fun d hd => h d (by simp [hd])]

/-- Canonical memories that read alike everywhere are equal. -/
theorem Memory.ext {m m' : List Host.Cell} (h : m.Pairwise fun c d => c.1 < d.1)
    (h' : m'.Pairwise fun c d => c.1 < d.1) (hr : ∀ a, Memory.read? m a = Memory.read? m' a) : m = m' := by
  induction m generalizing m' with
  | nil =>
    cases m' with
    | nil => rfl
    | cons d m' => simpa [Memory.read?] using hr d.1
  | cons c m ih =>
    cases m' with
    | nil => simpa [Memory.read?] using hr c.1
    | cons d m' =>
      obtain ⟨hc, hm⟩ := List.pairwise_cons.mp h
      obtain ⟨hd, hm'⟩ := List.pairwise_cons.mp h'
      have first : c.1 = d.1 := by
        rcases Nat.lt_trichotomy c.1 d.1 with hlt | he | hlt
        · have := hr c.1
          rw [Memory.read?, if_pos rfl, Memory.read?, if_neg (by omega),
            Memory.read?_of_lt fun e he => by have := hd e he; omega] at this
          simp at this
        · exact he
        · have := hr d.1
          rw [Memory.read?, if_neg (by omega), Memory.read?_of_lt fun e he => by have := hc e he; omega,
            Memory.read?, if_pos rfl] at this
          simp at this
      have same : c = d := by
        have := hr c.1
        rw [Memory.read?, if_pos rfl, Memory.read?, if_pos first.symm] at this
        exact Prod.ext first (by simpa using this)
      subst same
      congr 1
      refine ih hm hm' fun a => ?_
      by_cases ha : c.1 = a
      · rw [Memory.read?_of_lt fun e he => by have := hc e he; omega,
          Memory.read?_of_lt fun e he => by have := hd e he; omega]
      · simpa [Memory.read?, ha] using hr a

end Sys2Proof.Machine
end

