-- ==== Sys2Proof/Laws/PerInstr.lean ====
section
/-! SUPPORT. What holds of every command as syntax, one lemma per constructor: it is well formed, its word
is legal, and the word's fields are the ones the command word's format gives it (R38, R39, R40). -/

namespace Sys2Proof.Laws.CommandWord

/-- The `OP` value of a command (R39). -/
def opOf : Instr → BitVec 4
  | .init => 0b0001
  | .block => 0b0010
  | .final _ => 0b0011

/-- The `N` value of a command (R40): 0 with INIT and BLOCK. -/
def countOf : Instr → BitVec 7
  | .init => 0
  | .block => 0
  | .final n => n

/-- The command is well formed, its word is legal, and `OP` and `N` stand where R38 puts them. -/
def Statement (i : Instr) : Prop :=
  i.wellFormed = true ∧ legalWord (encode i) = true ∧ fieldOp (encode i) = opOf i
    ∧ fieldN (encode i) = countOf i ∧ lowReservedClear (encode i) = true
    ∧ highReservedClear (encode i) = true

theorem init : Statement .init := by unfold Statement; decide

theorem block : Statement .block := by unfold Statement; decide

theorem final (n : BitVec 7) : Statement (.final n) := by unfold Statement; revert n; decide

end Sys2Proof.Laws.CommandWord
end

