-- ==== Sys2Proof/Laws/State.lean ====
section
/-! SUPPORT. What each named update of the state does to each field: one lemma per field per update. -/

namespace Sys2Proof.Machine

section retire

@[simp] theorem State.retire_h (s : State) : s.retire.h = s.h := rfl
@[simp] theorem State.retire_mlen (s : State) : s.retire.mlen = s.mlen := rfl
@[simp] theorem State.retire_ctrl (s : State) : s.retire.ctrl = s.ctrl := rfl
@[simp] theorem State.retire_busy (s : State) : s.retire.busy = false := rfl
@[simp] theorem State.retire_err (s : State) : s.retire.err = s.err := rfl
@[simp] theorem State.retire_errcode (s : State) : s.retire.errcode = s.errcode := rfl
@[simp] theorem State.retire_buf (s : State) : s.retire.buf = s.buf := rfl
@[simp] theorem State.retire_pend (s : State) : s.retire.pend = none := rfl
@[simp] theorem State.retire_scratch (s : State) : s.retire.scratch = s.scratch := rfl
@[simp] theorem State.retire_host (s : State) : s.retire.host = s.host := rfl
@[simp] theorem State.retire_sched (s : State) : s.retire.sched = s.sched := rfl
@[simp] theorem State.retire_reads (s : State) : s.retire.reads = s.reads := rfl
@[simp] theorem State.retire_turn (s : State) : s.retire.turn = s.turn := rfl
@[simp] theorem State.retire_fresh (s : State) : s.retire.fresh = s.fresh := rfl

end retire

section accept

@[simp] theorem State.accept_h (s : State) (c : Instr) : (s.accept c).h = s.h := rfl
@[simp] theorem State.accept_mlen (s : State) (c : Instr) : (s.accept c).mlen = s.mlen := rfl
@[simp] theorem State.accept_ctrl (s : State) (c : Instr) : (s.accept c).ctrl = acceptedCtrl s.ctrl c := rfl
@[simp] theorem State.accept_busy (s : State) (c : Instr) : (s.accept c).busy = true := rfl
@[simp] theorem State.accept_err (s : State) (c : Instr) : (s.accept c).err = s.err := rfl
@[simp] theorem State.accept_errcode (s : State) (c : Instr) : (s.accept c).errcode = s.errcode := rfl
@[simp] theorem State.accept_buf (s : State) (c : Instr) : (s.accept c).buf = s.buf := rfl
@[simp] theorem State.accept_pend (s : State) (c : Instr) : (s.accept c).pend = some c := rfl
@[simp] theorem State.accept_scratch (s : State) (c : Instr) : (s.accept c).scratch = s.scratch := rfl
@[simp] theorem State.accept_host (s : State) (c : Instr) : (s.accept c).host = s.host := rfl
@[simp] theorem State.accept_sched (s : State) (c : Instr) : (s.accept c).sched = s.sched := rfl
@[simp] theorem State.accept_reads (s : State) (c : Instr) : (s.accept c).reads = s.reads := rfl
@[simp] theorem State.accept_turn (s : State) (c : Instr) : (s.accept c).turn = s.turn := rfl
@[simp] theorem State.accept_fresh (s : State) (c : Instr) : (s.accept c).fresh = s.fresh := rfl

end accept

section freeScratch

@[simp] theorem State.freeScratch_h (s : State) : s.freeScratch.h = s.h := rfl
@[simp] theorem State.freeScratch_mlen (s : State) : s.freeScratch.mlen = s.mlen := rfl
@[simp] theorem State.freeScratch_ctrl (s : State) : s.freeScratch.ctrl = s.ctrl := rfl
@[simp] theorem State.freeScratch_busy (s : State) : s.freeScratch.busy = s.busy := rfl
@[simp] theorem State.freeScratch_err (s : State) : s.freeScratch.err = s.err := rfl
@[simp] theorem State.freeScratch_errcode (s : State) : s.freeScratch.errcode = s.errcode := rfl
@[simp] theorem State.freeScratch_buf (s : State) : s.freeScratch.buf = s.buf := rfl
@[simp] theorem State.freeScratch_pend (s : State) : s.freeScratch.pend = s.pend := rfl
@[simp] theorem State.freeScratch_scratch (s : State) : s.freeScratch.scratch = Scratch.free s.fresh := rfl
@[simp] theorem State.freeScratch_host (s : State) : s.freeScratch.host = s.host := rfl
@[simp] theorem State.freeScratch_sched (s : State) : s.freeScratch.sched = s.sched := rfl
@[simp] theorem State.freeScratch_reads (s : State) : s.freeScratch.reads = s.reads := rfl
@[simp] theorem State.freeScratch_turn (s : State) : s.freeScratch.turn = s.turn := rfl
@[simp] theorem State.freeScratch_fresh (s : State) : s.freeScratch.fresh = s.fresh + 1 := rfl

end freeScratch

section resetEvent

@[simp] theorem State.resetEvent_h (s : State) : s.resetEvent.h = iv := rfl
@[simp] theorem State.resetEvent_mlen (s : State) : s.resetEvent.mlen = 0 := rfl
@[simp] theorem State.resetEvent_ctrl (s : State) : s.resetEvent.ctrl = .streaming := rfl
@[simp] theorem State.resetEvent_busy (s : State) : s.resetEvent.busy = false := rfl
@[simp] theorem State.resetEvent_err (s : State) : s.resetEvent.err = false := rfl
@[simp] theorem State.resetEvent_errcode (s : State) : s.resetEvent.errcode = .none := rfl
@[simp] theorem State.resetEvent_buf (s : State) : s.resetEvent.buf = [] := rfl
@[simp] theorem State.resetEvent_pend (s : State) : s.resetEvent.pend = none := rfl
@[simp] theorem State.resetEvent_scratch (s : State) : s.resetEvent.scratch = Scratch.free s.fresh := rfl
@[simp] theorem State.resetEvent_host (s : State) : s.resetEvent.host = s.host := rfl
@[simp] theorem State.resetEvent_sched (s : State) : s.resetEvent.sched = s.sched := rfl
@[simp] theorem State.resetEvent_reads (s : State) : s.resetEvent.reads = s.reads := rfl
@[simp] theorem State.resetEvent_turn (s : State) : s.resetEvent.turn = s.turn := rfl
@[simp] theorem State.resetEvent_fresh (s : State) : s.resetEvent.fresh = s.fresh + 1 := rfl

end resetEvent

section logRead

@[simp] theorem State.logRead_h (s : State) (v : ReadVal) : (s.logRead v).h = s.h := rfl
@[simp] theorem State.logRead_mlen (s : State) (v : ReadVal) : (s.logRead v).mlen = s.mlen := rfl
@[simp] theorem State.logRead_ctrl (s : State) (v : ReadVal) : (s.logRead v).ctrl = s.ctrl := rfl
@[simp] theorem State.logRead_busy (s : State) (v : ReadVal) : (s.logRead v).busy = s.busy := rfl
@[simp] theorem State.logRead_err (s : State) (v : ReadVal) : (s.logRead v).err = s.err := rfl
@[simp] theorem State.logRead_errcode (s : State) (v : ReadVal) : (s.logRead v).errcode = s.errcode := rfl
@[simp] theorem State.logRead_buf (s : State) (v : ReadVal) : (s.logRead v).buf = s.buf := rfl
@[simp] theorem State.logRead_pend (s : State) (v : ReadVal) : (s.logRead v).pend = s.pend := rfl
@[simp] theorem State.logRead_scratch (s : State) (v : ReadVal) : (s.logRead v).scratch = s.scratch := rfl
@[simp] theorem State.logRead_host (s : State) (v : ReadVal) : (s.logRead v).host = s.host := rfl
@[simp] theorem State.logRead_sched (s : State) (v : ReadVal) : (s.logRead v).sched = s.sched := rfl
@[simp] theorem State.logRead_reads (s : State) (v : ReadVal) : (s.logRead v).reads = s.reads ++ [v] := rfl
@[simp] theorem State.logRead_turn (s : State) (v : ReadVal) : (s.logRead v).turn = s.turn := rfl
@[simp] theorem State.logRead_fresh (s : State) (v : ReadVal) : (s.logRead v).fresh = s.fresh := rfl

end logRead

section placeCommand

@[simp] theorem State.placeCommand_h (s : State) (w : BitVec 32) : (s.placeCommand w).h = s.h := rfl
@[simp] theorem State.placeCommand_mlen (s : State) (w : BitVec 32) : (s.placeCommand w).mlen = s.mlen := rfl
@[simp] theorem State.placeCommand_ctrl (s : State) (w : BitVec 32) : (s.placeCommand w).ctrl = s.ctrl := rfl
@[simp] theorem State.placeCommand_busy (s : State) (w : BitVec 32) : (s.placeCommand w).busy = s.busy := rfl
@[simp] theorem State.placeCommand_err (s : State) (w : BitVec 32) : (s.placeCommand w).err = s.err := rfl
@[simp] theorem State.placeCommand_errcode (s : State) (w : BitVec 32) : (s.placeCommand w).errcode = s.errcode := rfl
@[simp] theorem State.placeCommand_buf (s : State) (w : BitVec 32) : (s.placeCommand w).buf = s.buf := rfl
@[simp] theorem State.placeCommand_pend (s : State) (w : BitVec 32) : (s.placeCommand w).pend = s.pend := rfl
@[simp] theorem State.placeCommand_scratch (s : State) (w : BitVec 32) : (s.placeCommand w).scratch = s.scratch := rfl
@[simp] theorem State.placeCommand_host (s : State) (w : BitVec 32) : (s.placeCommand w).host = .access (.write 0x80 4 (w.setWidth 64)) :: s.host := rfl
@[simp] theorem State.placeCommand_sched (s : State) (w : BitVec 32) : (s.placeCommand w).sched = .agent .host :: s.sched := rfl
@[simp] theorem State.placeCommand_reads (s : State) (w : BitVec 32) : (s.placeCommand w).reads = s.reads := rfl
@[simp] theorem State.placeCommand_turn (s : State) (w : BitVec 32) : (s.placeCommand w).turn = s.turn := rfl
@[simp] theorem State.placeCommand_fresh (s : State) (w : BitVec 32) : (s.placeCommand w).fresh = s.fresh := rfl

end placeCommand

section completeInit

@[simp] theorem completeInit_h (s : State) : (completeInit s).h = iv := rfl
@[simp] theorem completeInit_mlen (s : State) : (completeInit s).mlen = 0 := rfl
@[simp] theorem completeInit_ctrl (s : State) : (completeInit s).ctrl = .streaming := rfl
@[simp] theorem completeInit_busy (s : State) : (completeInit s).busy = false := rfl
@[simp] theorem completeInit_err (s : State) : (completeInit s).err = false := rfl
@[simp] theorem completeInit_errcode (s : State) : (completeInit s).errcode = .none := rfl
@[simp] theorem completeInit_buf (s : State) : (completeInit s).buf = s.buf := rfl
@[simp] theorem completeInit_pend (s : State) : (completeInit s).pend = none := rfl
@[simp] theorem completeInit_scratch (s : State) : (completeInit s).scratch = s.scratch := rfl
@[simp] theorem completeInit_host (s : State) : (completeInit s).host = s.host := rfl
@[simp] theorem completeInit_sched (s : State) : (completeInit s).sched = s.sched := rfl
@[simp] theorem completeInit_reads (s : State) : (completeInit s).reads = s.reads := rfl
@[simp] theorem completeInit_turn (s : State) : (completeInit s).turn = s.turn := rfl
@[simp] theorem completeInit_fresh (s : State) : (completeInit s).fresh = s.fresh := rfl

end completeInit

section completeBlock

@[simp] theorem completeBlock_h (s : State) : (completeBlock s).h = compress s.h (bufBlock s.buf s.fresh) := rfl
@[simp] theorem completeBlock_mlen (s : State) : (completeBlock s).mlen = s.mlen + 1024 := rfl
@[simp] theorem completeBlock_ctrl (s : State) : (completeBlock s).ctrl = s.ctrl := rfl
@[simp] theorem completeBlock_busy (s : State) : (completeBlock s).busy = false := rfl
@[simp] theorem completeBlock_err (s : State) : (completeBlock s).err = s.err := rfl
@[simp] theorem completeBlock_errcode (s : State) : (completeBlock s).errcode = s.errcode := rfl
@[simp] theorem completeBlock_buf (s : State) : (completeBlock s).buf = s.buf := rfl
@[simp] theorem completeBlock_pend (s : State) : (completeBlock s).pend = none := rfl
@[simp] theorem completeBlock_scratch (s : State) : (completeBlock s).scratch = Scratch.free s.fresh := rfl
@[simp] theorem completeBlock_host (s : State) : (completeBlock s).host = s.host := rfl
@[simp] theorem completeBlock_sched (s : State) : (completeBlock s).sched = s.sched := rfl
@[simp] theorem completeBlock_reads (s : State) : (completeBlock s).reads = s.reads := rfl
@[simp] theorem completeBlock_turn (s : State) : (completeBlock s).turn = s.turn := rfl
@[simp] theorem completeBlock_fresh (s : State) : (completeBlock s).fresh = s.fresh + 1 := rfl

end completeBlock

section completeFinal

@[simp] theorem completeFinal_h (n : Nat) (s : State) :
    (completeFinal n s).h = compressPadded s.h (pad (bufBlock s.buf s.fresh) n (s.mlen + 8 * BitVec.ofNat 64 n)) := rfl
@[simp] theorem completeFinal_mlen (n : Nat) (s : State) :
    (completeFinal n s).mlen = s.mlen + 8 * BitVec.ofNat 64 n := rfl
@[simp] theorem completeFinal_ctrl (n : Nat) (s : State) : (completeFinal n s).ctrl = .done := rfl
@[simp] theorem completeFinal_busy (n : Nat) (s : State) : (completeFinal n s).busy = false := rfl
@[simp] theorem completeFinal_err (n : Nat) (s : State) : (completeFinal n s).err = s.err := rfl
@[simp] theorem completeFinal_errcode (n : Nat) (s : State) : (completeFinal n s).errcode = s.errcode := rfl
@[simp] theorem completeFinal_buf (n : Nat) (s : State) : (completeFinal n s).buf = [] := rfl
@[simp] theorem completeFinal_pend (n : Nat) (s : State) : (completeFinal n s).pend = none := rfl
@[simp] theorem completeFinal_scratch (n : Nat) (s : State) :
    (completeFinal n s).scratch = Scratch.free s.fresh := rfl
@[simp] theorem completeFinal_host (n : Nat) (s : State) : (completeFinal n s).host = s.host := rfl
@[simp] theorem completeFinal_sched (n : Nat) (s : State) : (completeFinal n s).sched = s.sched := rfl
@[simp] theorem completeFinal_reads (n : Nat) (s : State) : (completeFinal n s).reads = s.reads := rfl
@[simp] theorem completeFinal_turn (n : Nat) (s : State) : (completeFinal n s).turn = s.turn := rfl
@[simp] theorem completeFinal_fresh (n : Nat) (s : State) : (completeFinal n s).fresh = s.fresh + 1 := rfl

end completeFinal

section raiseIfErr

@[simp] theorem State.raiseIfErr_h (s : State) (code : ErrCode) : (s.raiseIfErr code).h = s.h := by unfold State.raiseIfErr; split <;> rfl
@[simp] theorem State.raiseIfErr_mlen (s : State) (code : ErrCode) : (s.raiseIfErr code).mlen = s.mlen := by unfold State.raiseIfErr; split <;> rfl
@[simp] theorem State.raiseIfErr_ctrl (s : State) (code : ErrCode) : (s.raiseIfErr code).ctrl = s.ctrl := by unfold State.raiseIfErr; split <;> rfl
@[simp] theorem State.raiseIfErr_busy (s : State) (code : ErrCode) : (s.raiseIfErr code).busy = s.busy := by unfold State.raiseIfErr; split <;> rfl
@[simp] theorem State.raiseIfErr_buf (s : State) (code : ErrCode) : (s.raiseIfErr code).buf = s.buf := by unfold State.raiseIfErr; split <;> rfl
@[simp] theorem State.raiseIfErr_pend (s : State) (code : ErrCode) : (s.raiseIfErr code).pend = s.pend := by unfold State.raiseIfErr; split <;> rfl
@[simp] theorem State.raiseIfErr_scratch (s : State) (code : ErrCode) : (s.raiseIfErr code).scratch = s.scratch := by unfold State.raiseIfErr; split <;> rfl
@[simp] theorem State.raiseIfErr_host (s : State) (code : ErrCode) : (s.raiseIfErr code).host = s.host := by unfold State.raiseIfErr; split <;> rfl
@[simp] theorem State.raiseIfErr_sched (s : State) (code : ErrCode) : (s.raiseIfErr code).sched = s.sched := by unfold State.raiseIfErr; split <;> rfl
@[simp] theorem State.raiseIfErr_reads (s : State) (code : ErrCode) : (s.raiseIfErr code).reads = s.reads := by unfold State.raiseIfErr; split <;> rfl
@[simp] theorem State.raiseIfErr_turn (s : State) (code : ErrCode) : (s.raiseIfErr code).turn = s.turn := by unfold State.raiseIfErr; split <;> rfl
@[simp] theorem State.raiseIfErr_fresh (s : State) (code : ErrCode) : (s.raiseIfErr code).fresh = s.fresh := by unfold State.raiseIfErr; split <;> rfl
@[simp] theorem State.raiseIfErr_err (s : State) (code : ErrCode) : (s.raiseIfErr code).err = true := by
  unfold State.raiseIfErr; split <;> simp_all
@[simp] theorem State.raiseIfErr_errcode (s : State) (code : ErrCode) :
    (s.raiseIfErr code).errcode = if s.err then s.errcode else code := by
  unfold State.raiseIfErr; split <;> rfl

/-- R95 as one record: the flag set, the code of the first error kept. -/
theorem State.raiseIfErr_eq (s : State) (code : ErrCode) :
    s.raiseIfErr code = { s with err := true, errcode := if s.err then s.errcode else code } := by
  cases s; unfold State.raiseIfErr; split <;> simp_all

/-- A second error is absorbed (R95, R103). -/
@[simp] theorem State.raiseIfErr_raiseIfErr (s : State) (c d : ErrCode) :
    (s.raiseIfErr c).raiseIfErr d = s.raiseIfErr c := by
  rw [State.raiseIfErr, if_pos (State.raiseIfErr_err s c)]

end raiseIfErr

section readWord

@[simp] theorem State.readWord_h (s : State) (v : Word) : (s.readWord v).h = s.h := by unfold State.readWord; split <;> rfl
@[simp] theorem State.readWord_mlen (s : State) (v : Word) : (s.readWord v).mlen = s.mlen := by unfold State.readWord; split <;> rfl
@[simp] theorem State.readWord_ctrl (s : State) (v : Word) : (s.readWord v).ctrl = s.ctrl := by unfold State.readWord; split <;> rfl
@[simp] theorem State.readWord_busy (s : State) (v : Word) : (s.readWord v).busy = s.busy := by unfold State.readWord; split <;> rfl
@[simp] theorem State.readWord_err (s : State) (v : Word) : (s.readWord v).err = s.err := by unfold State.readWord; split <;> rfl
@[simp] theorem State.readWord_errcode (s : State) (v : Word) : (s.readWord v).errcode = s.errcode := by unfold State.readWord; split <;> rfl
@[simp] theorem State.readWord_buf (s : State) (v : Word) : (s.readWord v).buf = s.buf := by unfold State.readWord; split <;> rfl
@[simp] theorem State.readWord_pend (s : State) (v : Word) : (s.readWord v).pend = s.pend := by unfold State.readWord; split <;> rfl
@[simp] theorem State.readWord_scratch (s : State) (v : Word) : (s.readWord v).scratch = s.scratch := by unfold State.readWord; split <;> rfl
@[simp] theorem State.readWord_host (s : State) (v : Word) : (s.readWord v).host = s.host := by unfold State.readWord; split <;> rfl
@[simp] theorem State.readWord_sched (s : State) (v : Word) : (s.readWord v).sched = s.sched := by unfold State.readWord; split <;> rfl
@[simp] theorem State.readWord_turn (s : State) (v : Word) : (s.readWord v).turn = s.turn := by unfold State.readWord; split <;> rfl

end readWord

section storeBytes

@[simp] theorem State.storeBytes_h (s : State) (k : Nat) (bs : List Byte) : (s.storeBytes k bs).h = s.h := by unfold State.storeBytes; split <;> simp
@[simp] theorem State.storeBytes_mlen (s : State) (k : Nat) (bs : List Byte) : (s.storeBytes k bs).mlen = s.mlen := by unfold State.storeBytes; split <;> simp
@[simp] theorem State.storeBytes_ctrl (s : State) (k : Nat) (bs : List Byte) : (s.storeBytes k bs).ctrl = s.ctrl := by unfold State.storeBytes; split <;> simp
@[simp] theorem State.storeBytes_busy (s : State) (k : Nat) (bs : List Byte) : (s.storeBytes k bs).busy = s.busy := by unfold State.storeBytes; split <;> simp
@[simp] theorem State.storeBytes_pend (s : State) (k : Nat) (bs : List Byte) : (s.storeBytes k bs).pend = s.pend := by unfold State.storeBytes; split <;> simp
@[simp] theorem State.storeBytes_scratch (s : State) (k : Nat) (bs : List Byte) : (s.storeBytes k bs).scratch = s.scratch := by unfold State.storeBytes; split <;> simp
@[simp] theorem State.storeBytes_host (s : State) (k : Nat) (bs : List Byte) : (s.storeBytes k bs).host = s.host := by unfold State.storeBytes; split <;> simp
@[simp] theorem State.storeBytes_sched (s : State) (k : Nat) (bs : List Byte) : (s.storeBytes k bs).sched = s.sched := by unfold State.storeBytes; split <;> simp
@[simp] theorem State.storeBytes_reads (s : State) (k : Nat) (bs : List Byte) : (s.storeBytes k bs).reads = s.reads := by unfold State.storeBytes; split <;> simp
@[simp] theorem State.storeBytes_turn (s : State) (k : Nat) (bs : List Byte) : (s.storeBytes k bs).turn = s.turn := by unfold State.storeBytes; split <;> simp
@[simp] theorem State.storeBytes_fresh (s : State) (k : Nat) (bs : List Byte) : (s.storeBytes k bs).fresh = s.fresh := by unfold State.storeBytes; split <;> simp

theorem State.storeBytes_of_busy {s : State} (h : s.busy = true) (k : Nat) (bs : List Byte) :
    s.storeBytes k bs = s.raiseIfErr .bufBusy := by simp [State.storeBytes, h]

theorem State.storeBytes_of_idle {s : State} (h : s.busy = false) (k : Nat) (bs : List Byte) :
    s.storeBytes k bs = { s with buf := Memory.writeBytes s.buf k bs } := by simp [State.storeBytes, h]

/-- Bytes and then the bytes behind them, as one run, whether the core is busy or not (R26, R99). -/
theorem State.storeBytes_append (s : State) (k : Nat) (bs cs : List Byte) :
    (s.storeBytes k bs).storeBytes (k + bs.length) cs = s.storeBytes k (bs ++ cs) := by
  cases h : s.busy
  · simp [State.storeBytes, h, Memory.writeBytes_append]
  · rw [State.storeBytes_of_busy h, State.storeBytes_of_busy (by simpa using h), State.storeBytes_of_busy h,
      State.raiseIfErr_raiseIfErr]

end storeBytes

section consider

@[simp] theorem State.admit_h (s : State) (c : Instr) : (s.consider c).h = s.h := by unfold State.consider; split <;> (try split) <;> (try split) <;> simp
@[simp] theorem State.admit_mlen (s : State) (c : Instr) : (s.consider c).mlen = s.mlen := by unfold State.consider; split <;> (try split) <;> (try split) <;> simp
@[simp] theorem State.admit_buf (s : State) (c : Instr) : (s.consider c).buf = s.buf := by unfold State.consider; split <;> (try split) <;> (try split) <;> simp
@[simp] theorem State.admit_scratch (s : State) (c : Instr) : (s.consider c).scratch = s.scratch := by unfold State.consider; split <;> (try split) <;> (try split) <;> simp
@[simp] theorem State.admit_host (s : State) (c : Instr) : (s.consider c).host = s.host := by unfold State.consider; split <;> (try split) <;> (try split) <;> simp
@[simp] theorem State.admit_sched (s : State) (c : Instr) : (s.consider c).sched = s.sched := by unfold State.consider; split <;> (try split) <;> (try split) <;> simp
@[simp] theorem State.admit_reads (s : State) (c : Instr) : (s.consider c).reads = s.reads := by unfold State.consider; split <;> (try split) <;> (try split) <;> simp
@[simp] theorem State.admit_turn (s : State) (c : Instr) : (s.consider c).turn = s.turn := by unfold State.consider; split <;> (try split) <;> (try split) <;> simp
@[simp] theorem State.admit_fresh (s : State) (c : Instr) : (s.consider c).fresh = s.fresh := by unfold State.consider; split <;> (try split) <;> (try split) <;> simp

/-- What taking a legal command while idle can do (R80): it is accepted, ignored because of an earlier
error, or raises SEQUENCE. -/
theorem State.admit_cases (s : State) (c : Instr) :
    (s.consider c = s.accept c ∧ (c = .init ∨ (s.err = false ∧ s.ctrl ≠ .done)))
    ∨ (s.consider c = s ∧ s.err = true ∧ c ≠ .init)
    ∨ (s.consider c = s.raiseIfErr .sequence ∧ s.err = false ∧ s.ctrl = .done ∧ c ≠ .init) := by
  cases c <;> by_cases he : s.err = true <;> by_cases hd : s.ctrl = .done <;> simp [State.consider, he, hd]

end consider

section writeCommand

@[simp] theorem State.writeCommand_h (s : State) (c : Option Instr) : (s.writeCommand c).h = s.h := by unfold State.writeCommand; split <;> (try split) <;> simp
@[simp] theorem State.writeCommand_mlen (s : State) (c : Option Instr) : (s.writeCommand c).mlen = s.mlen := by unfold State.writeCommand; split <;> (try split) <;> simp
@[simp] theorem State.writeCommand_buf (s : State) (c : Option Instr) : (s.writeCommand c).buf = s.buf := by unfold State.writeCommand; split <;> (try split) <;> simp
@[simp] theorem State.writeCommand_scratch (s : State) (c : Option Instr) : (s.writeCommand c).scratch = s.scratch := by unfold State.writeCommand; split <;> (try split) <;> simp
@[simp] theorem State.writeCommand_host (s : State) (c : Option Instr) : (s.writeCommand c).host = s.host := by unfold State.writeCommand; split <;> (try split) <;> simp
@[simp] theorem State.writeCommand_sched (s : State) (c : Option Instr) : (s.writeCommand c).sched = s.sched := by unfold State.writeCommand; split <;> (try split) <;> simp
@[simp] theorem State.writeCommand_reads (s : State) (c : Option Instr) : (s.writeCommand c).reads = s.reads := by unfold State.writeCommand; split <;> (try split) <;> simp
@[simp] theorem State.writeCommand_turn (s : State) (c : Option Instr) : (s.writeCommand c).turn = s.turn := by unfold State.writeCommand; split <;> (try split) <;> simp
@[simp] theorem State.writeCommand_fresh (s : State) (c : Option Instr) : (s.writeCommand c).fresh = s.fresh := by unfold State.writeCommand; split <;> (try split) <;> simp

theorem State.writeCommand_of_busy {s : State} (h : s.busy = true) (c : Option Instr) :
    s.writeCommand c = s.raiseIfErr .cmdBusy := by simp [State.writeCommand, h]

theorem State.writeCommand_of_illegal {s : State} (h : s.busy = false) :
    s.writeCommand none = s.raiseIfErr .illegalCmd := by simp [State.writeCommand, h]

theorem State.writeCommand_of_legal {s : State} (h : s.busy = false) (c : Instr) :
    s.writeCommand (some c) = s.consider c := by simp [State.writeCommand, h]

end writeCommand

section pollStatus

@[simp] theorem pollStatus_h (rest : List HostOp) (s : State) : (pollStatus rest s).h = s.h := by
  unfold pollStatus; split <;> rfl
@[simp] theorem pollStatus_mlen (rest : List HostOp) (s : State) : (pollStatus rest s).mlen = s.mlen := by
  unfold pollStatus; split <;> rfl
@[simp] theorem pollStatus_ctrl (rest : List HostOp) (s : State) : (pollStatus rest s).ctrl = s.ctrl := by
  unfold pollStatus; split <;> rfl
@[simp] theorem pollStatus_busy (rest : List HostOp) (s : State) : (pollStatus rest s).busy = s.busy := by
  unfold pollStatus; split <;> rfl
@[simp] theorem pollStatus_err (rest : List HostOp) (s : State) : (pollStatus rest s).err = s.err := by
  unfold pollStatus; split <;> rfl
@[simp] theorem pollStatus_errcode (rest : List HostOp) (s : State) : (pollStatus rest s).errcode = s.errcode := by
  unfold pollStatus; split <;> rfl
@[simp] theorem pollStatus_buf (rest : List HostOp) (s : State) : (pollStatus rest s).buf = s.buf := by
  unfold pollStatus; split <;> rfl
@[simp] theorem pollStatus_pend (rest : List HostOp) (s : State) : (pollStatus rest s).pend = s.pend := by
  unfold pollStatus; split <;> rfl
@[simp] theorem pollStatus_scratch (rest : List HostOp) (s : State) : (pollStatus rest s).scratch = s.scratch := by
  unfold pollStatus; split <;> rfl
@[simp] theorem pollStatus_sched (rest : List HostOp) (s : State) : (pollStatus rest s).sched = s.sched := by
  unfold pollStatus; split <;> rfl
@[simp] theorem pollStatus_turn (rest : List HostOp) (s : State) : (pollStatus rest s).turn = s.turn := by
  unfold pollStatus; split <;> rfl
@[simp] theorem pollStatus_fresh (rest : List HostOp) (s : State) : (pollStatus rest s).fresh = s.fresh := by
  unfold pollStatus; split <;> rfl
@[simp] theorem pollStatus_reads (rest : List HostOp) (s : State) :
    (pollStatus rest s).reads = s.reads ++ [.w32 s.status] := by
  unfold pollStatus; split <;> rfl

end pollStatus

end Sys2Proof.Machine
end

