-- ==== Sys2Proof/Laws/Step.lean ====
section
/-! SUPPORT. What a meaning, an access and a step can do, said once: if it answers a next state, one of the
listed cases holds. Proofs cite these instead of unfolding the step. -/

namespace Sys2Proof.Machine

/-- On the host's turn every command answers R80's test sequence for that command. -/
theorem exec_host (i : Instr) (s : State) (h : s.turn = .host) :
    exec i s = .next (s.writeCommand (some i)) := by
  cases i <;> simp [exec, execInit, execBlock, execFinal, h]

/-- INIT's completion. -/
theorem execInit_core {s : State} (h : s.turn = .core) : exec .init s = .next (completeInit s) := by
  simp [exec, execInit, h]

/-- BLOCK's completion, or the fault of an unmarked byte. -/
theorem execBlock_core {s : State} (h : s.turn = .core) :
    exec .block s = if marked s.buf 128 then .next (completeBlock s) else .fault .unwrittenBufByte := by
  simp only [exec, execBlock, h]

/-- FINAL's completion, or the fault of an unmarked byte. -/
theorem execFinal_core {s : State} (n : BitVec 7) (h : s.turn = .core) :
    exec (.final n) s =
      if marked s.buf n.toNat then .next (completeFinal n.toNat s) else .fault .unwrittenBufByte := by
  simp only [exec, execFinal, h]; rfl

/-- What a command's completion can answer, on the core's turn. -/
theorem exec_core_cases {i : Instr} {s t : State} (h : s.turn = .core) (ht : exec i s = .next t) :
    (i = .init ∧ t = completeInit s)
    ∨ (i = .block ∧ marked s.buf 128 = true ∧ t = completeBlock s)
    ∨ (∃ n, i = .final n ∧ marked s.buf (validCount n) = true ∧ t = completeFinal (validCount n) s) := by
  cases i with
  | init =>
    simp only [exec, execInit, h, Host.Outcome.next.injEq] at ht
    exact .inl ⟨rfl, ht.symm⟩
  | block =>
    simp only [exec, execBlock, h] at ht
    split at ht
    · exact .inr (.inl ⟨rfl, ‹_›, (Host.Outcome.next.inj ht).symm⟩)
    · cases ht
  | final n =>
    simp only [exec, execFinal, h] at ht
    split at ht
    · exact .inr (.inr ⟨n, rfl, ‹_›, (Host.Outcome.next.inj ht).symm⟩)
    · cases ht

/-- A command never refuses, and the one fault it raises is that of an unmarked byte. -/
theorem exec_total (i : Instr) (s : State) :
    (∃ t, exec i s = .next t) ∨ exec i s = .fault .unwrittenBufByte := by
  cases i <;> simp only [exec, execInit, execBlock, execFinal] <;> split <;> (try split) <;> simp

/-- Every byte below `n` is marked exactly when the check of R105 says so. -/
theorem marked_iff (m : List Host.Cell) (n : Nat) :
    marked m n = true ↔ ∀ k, k < n → (Memory.read? m k).isSome = true := by
  simp [marked]

/-- Some byte below `n` is unmarked exactly when the check fails. -/
theorem marked_eq_false_iff (m : List Host.Cell) (n : Nat) :
    marked m n = false ↔ ∃ k, k < n ∧ Memory.read? m k = none := by
  rw [← Bool.not_eq_true, marked_iff]; simp

/-- The block of bytes that are all marked is those bytes, whatever the draw of free values. -/
theorem bufBlock_of_marked (m : List Host.Cell) (b : Block) (d : Nat)
    (h : ∀ k, (hk : k < 128) → Memory.read? m k = some b[k]) : bufBlock m d = b := by
  ext k hk : 1
  simp [bufBlock, h k hk]

/-- The byte of the block that a marked byte of `BUF` gives. -/
theorem bufBlock_getElem (m : List Host.Cell) (d k : Nat) (hk : k < 128) :
    (bufBlock m d)[k] = (Memory.read? m k).getD (Config.freeByte d k) := by
  simp [bufBlock]

/-- What a CMD write answers on the host's turn: R80's tests on the decoding of the word. -/
theorem commandWrite_host (v : BitVec 32) (s : State) (h : s.turn = .host) :
    commandWrite v s = .next (s.writeCommand (decode v).toOption) := by
  unfold commandWrite
  cases hd : decode v with
  | ok i => simp [exec_host i s h, Except.toOption]
  | error e => cases e; simp [Except.toOption]

/-- What a read can answer. -/
theorem hostRead_cases {off : BitVec 8} {n : Nat} {s t : State} (h : hostRead off n s = .next t) :
    t = s.logRead (.w32 s.status) ∨ ∃ v, t = s.readWord v := by
  unfold hostRead at h
  split at h
  · cases h
  · exact .inl (Host.Outcome.next.inj h).symm
  · exact .inr ⟨_, (Host.Outcome.next.inj h).symm⟩
  · exact .inr ⟨_, (Host.Outcome.next.inj h).symm⟩

/-- Where a write of a legal width inside `BUF` lands. -/
theorem locateWrite_buf {off : BitVec 8} {n k : Nat} :
    (locateWrite off n = .ok (.bufByte k) → k = off.toNat ∧ k < 128 ∧ n = 1)
    ∧ (locateWrite off n = .ok (.bufWord k) → k = off.toNat ∧ k + 8 ≤ 128 ∧ n = 8 ∧ k % 8 = 0) := by
  unfold locateWrite
  constructor <;> intro h <;> grind

/-- What a write can answer on the host's turn. -/
theorem hostWrite_cases {off : BitVec 8} {n : Nat} {v : Word} {s t : State} (hs : s.turn = .host)
    (h : hostWrite off n v s = .next t) :
    (off.toNat ≤ 0x7F ∧ ∃ k bs, k + bs.length ≤ 128 ∧ t = s.storeBytes k bs)
    ∨ ∃ c, t = s.writeCommand c := by
  unfold hostWrite at h
  split at h
  · cases h
  · have hl := locateWrite_buf.1 ‹_›
    exact .inl ⟨by omega, _, _, by simp; omega, (Host.Outcome.next.inj h).symm⟩
  · have hl := locateWrite_buf.2 ‹_›
    exact .inl ⟨by omega, _, _, by simp [beBytes]; omega, (Host.Outcome.next.inj h).symm⟩
  · rw [commandWrite_host _ _ hs] at h
    exact .inr ⟨_, (Host.Outcome.next.inj h).symm⟩

/-- What a host step can do: `u` is the state with the line taken. -/
theorem hostStep_cases {s t : State} (hs : s.turn = .host) (h : hostStep s = .next t) :
    t = s
    ∨ (∃ rest, t = pollStatus rest s)
    ∨ (∃ u rest, u = { s with host := rest } ∧
        (t = u.logRead (.w32 u.status) ∨ (∃ v, t = u.readWord v)
        ∨ (∃ off n v k bs, s.host = .access (.write off n v) :: rest ∧ off.toNat ≤ 0x7F
            ∧ k + bs.length ≤ 128 ∧ t = u.storeBytes k bs)
        ∨ ∃ c, t = u.writeCommand c)) := by
  unfold hostStep at h
  split at h
  · exact .inl (Host.Outcome.next.inj h).symm
  · rename_i a rest hh
    refine .inr (.inr ⟨_, rest, rfl, ?_⟩)
    cases a with
    | read off n => rcases hostRead_cases h with h | h <;> simp [h]
    | write off n v =>
      rcases hostWrite_cases (by simpa using hs) h with ⟨ho, k, bs, hk, ht⟩ | ⟨c, ht⟩
      · exact .inr (.inr (.inl ⟨off, n, v, k, bs, hh, ho, hk, ht⟩))
      · exact .inr (.inr (.inr ⟨c, ht⟩))
  · exact .inr (.inl ⟨_, (Host.Outcome.next.inj h).symm⟩)

/-- What a core step can do. -/
theorem coreStep_cases {s t : State} (h : coreStep s = .next t) :
    ((s.busy = false ∨ s.pend = none) ∧ t = s)
    ∨ (s.busy = true ∧ ∃ i, s.pend = some i ∧ exec i s = .next t) := by
  unfold coreStep at h
  split at h
  · exact .inr ⟨‹_›, _, ‹_›, h⟩
  · exact .inl ⟨.inr ‹_›, (Host.Outcome.next.inj h).symm⟩
  · exact .inl ⟨.inl ‹_›, (Host.Outcome.next.inj h).symm⟩

/-- What a step can do: a host step, a core step or the reset event, with the turn taken off the order. -/
theorem step_cases {s t : State} (h : step s = .next t) :
    (s.nextTurn = .agent .host ∧ hostStep { s with sched := s.sched.tail, turn := .host } = .next t)
    ∨ (s.nextTurn = .agent .core ∧ coreStep { s with sched := s.sched.tail, turn := .core } = .next t)
    ∨ (s.nextTurn = .reset ∧ t = { s with sched := s.sched.tail }.resetEvent) := by
  unfold step stepTurn takeTurn at h
  split at h
  · exact .inl ⟨‹_›, h⟩
  · exact .inr (.inl ⟨‹_›, h⟩)
  · exact .inr (.inr ⟨‹_›, (Host.Outcome.next.inj h).symm⟩)

end Sys2Proof.Machine
end

