-- ==== Sys2Proof/Tests/Slice0.lean ====
section
/-! SUPPORT. Tests of one step each, with results from the spec's tables, and the witnesses of the statements'
hypotheses. Every expected value comes from spec/95_test_vectors.md or from the rule named. -/

namespace Sys2Proof.Tests

open Sys2Proof Sys2Proof.Machine

/-! ## Well-formedness: an ill-formed term for each check -/

/-- 95_test_vectors.md 6.1: reserved operations, `N` with INIT or BLOCK, bits 7:4 and bits 31:15. -/
theorem test_legalWord_refuses :
    legalWord 0x00000000 = false ∧ legalWord 0x00000004 = false ∧ legalWord 0x0000000f = false
    ∧ legalWord 0x00000101 = false ∧ legalWord 0x00000102 = false
    ∧ legalWord 0x00000010 = false ∧ legalWord 0x00000012 = false
    ∧ legalWord 0x00008003 = false ∧ legalWord 0x00010003 = false ∧ legalWord 0x80000003 = false := by decide

/-- The field checks of R38, one by one, with a word that only the named check refuses. -/
theorem test_field_checks_refuse :
    lowReservedClear 0x00000083 = false ∧ highReservedClear 0x00000083 = true
    ∧ lowReservedClear 0x00008003 = true ∧ highReservedClear 0x00008003 = false
    ∧ fieldOp 0x0000000c = 12 ∧ fieldN 0x00007f03 = 127 := by decide

/-- A host line whose operands do not fit is refused (R24, R47, R48). -/
theorem test_asmLine_refuses :
    (AsmLine.stB 256 0).wellFormed = false ∧ (AsmLine.stB 0 256).wellFormed = false
    ∧ (AsmLine.stD 0 (2 ^ 64)).wellFormed = false ∧ (AsmLine.stW 0x80 (2 ^ 32)).wellFormed = false
    ∧ (AsmLine.ldW 256).wellFormed = false ∧ (AsmLine.ldD 256).wellFormed = false
    ∧ (AsmLine.final 128).wellFormed = false ∧ (AsmLine.ldH 8).wellFormed = false
    ∧ (AsmLine.stFill 200 57 0).wellFormed = false ∧ (AsmLine.stText 254 ['a', 'b', 'c']).wellFormed = false
    ∧ (AsmLine.final 127).wellFormed = true ∧ (AsmLine.ldH 7).wellFormed = true := by decide

/-- Text that is not ASCII is refused (R48). -/
theorem test_asmLine_refuses_text : (AsmLine.stText 0 ['é']).wellFormed = false := by
  simp [AsmLine.wellFormed]

/-- The operand of FINAL is well formed at its largest value (R40). -/
theorem test_wellFormed_final : (Instr.final 127).wellFormed = true ∧ Instr.init.wellFormed = true := by decide

/-! ## Decoding: words written out from the format of R38 -/

/-- Bits 31:15, `N`, bits 7:4 and `OP`, written side by side. -/
theorem test_decode_written_out :
    decode 0b00000000000000000_0000000_0000_0001 = .ok .init
    ∧ decode 0b00000000000000000_0000000_0000_0010 = .ok .block
    ∧ decode 0b00000000000000000_0000011_0000_0011 = .ok (.final 3)
    ∧ decode 0b00000000000000000_1110000_0000_0011 = .ok (.final 112)
    ∧ decode 0b00000000000000000_1111111_0000_0011 = .ok (.final 127)
    ∧ decode 0b00000000000000000_0000000_0000_0011 = .ok (.final 0) := by decide

/-- Each single reserved bit, and a reserved operation, spells no command (R41). -/
theorem test_decode_refuses :
    decode 0b00000000000000001_0000011_0000_0011 = .error .illegal
    ∧ decode 0b10000000000000000_0000011_0000_0011 = .error .illegal
    ∧ decode 0b00000000000000000_0000011_0001_0011 = .error .illegal
    ∧ decode 0b00000000000000000_0000011_1000_0011 = .error .illegal
    ∧ decode 0b00000000000000000_0000001_0000_0001 = .error .illegal
    ∧ decode 0b00000000000000000_1000000_0000_0010 = .error .illegal
    ∧ decode 0b00000000000000000_0000000_0000_0111 = .error .illegal := by decide

/-- The words that the encoder writes (R49). -/
theorem test_encode :
    encode .init = 0x00000001 ∧ encode .block = 0x00000002 ∧ encode (.final 3) = 0x00000303
    ∧ encode (.final 127) = 0x00007f03 := by decide

/-- The table's own reading of its three rows. -/
theorem test_decodeTableWord :
    decodeTableWord 32 1 = some .init ∧ decodeTableWord 32 2 = some .block
    ∧ decodeTableWord 32 0x7003 = some (.final 112) ∧ decodeTableWord 32 0 = none := by decide

/-! ## Small states -/

/-- A core in reset's state but for the fields given: whose step it is, STATE, BUSY and PEND, ERR's code. -/
def core (turn : Agent) (ctrl : Ctrl) (pend : Option Instr) (code : ErrCode) : State :=
  { State.reset with turn := turn, ctrl := ctrl, busy := pend.isSome, pend := pend,
                     err := decide (code ≠ .none), errcode := code }

/-- `STATUS` after one step, where the step answers a next state. -/
def statusAfter (o : Host.Outcome State Fault Refusal) : Option (BitVec 32) :=
  match o with
  | .next t => some t.status
  | .fault _ => none
  | .refused _ => none

/-- The fault of a step, where it is one. -/
def faultOf (o : Host.Outcome State Fault Refusal) : Option Fault :=
  match o with
  | .next _ => none
  | .fault r => some r
  | .refused _ => none

/-- 128 marked bytes `0x00`. -/
def zeroBytes : List Host.Cell := (List.range 128).map fun k => (k, 0x00)

/-! ## Steps -/

/-- 95_test_vectors.md 6.1: STATUS after each command word, as the first step after reset. -/
theorem test_first_step_status :
    statusAfter (step (State.reset.withFetchWord 32 0x00000001)) = some 0x00000001
    ∧ statusAfter (step (State.reset.withFetchWord 32 0x00000002)) = some 0x00000001
    ∧ statusAfter (step (State.reset.withFetchWord 32 0x00007f03)) = some 0x00000101
    ∧ statusAfter (step (State.reset.withFetchWord 32 0x80000003)) = some 0x00000014 := by decide

/-- 95_test_vectors.md 6.2: the values of STATUS. -/
theorem test_status_values :
    State.reset.status = 0x00000000
    ∧ (core .host .streaming (some .block) .none).status = 0x00000001
    ∧ (core .host .finalizing (some (.final 1)) .none).status = 0x00000101
    ∧ (core .host .done none .none).status = 0x00000202
    ∧ (core .host .done (some .init) .none).status = 0x00000201
    ∧ (core .host .done none .sequence).status = 0x00000224
    ∧ (core .host .done (some .init) .sequence).status = 0x00000225
    ∧ (core .host .finalizing (some (.final 1)) .bufBusy).status = 0x00000145
    ∧ (core .host .done none .bufBusy).status = 0x00000244
    ∧ (core .host .streaming (some .block) .cmdBusy).status = 0x00000035 := by decide

/-- 95_test_vectors.md 6.3: INIT in DONE after an error is accepted, and its completion clears it. -/
theorem test_init :
    statusAfter (exec .init (core .host .done none .sequence)) = some 0x00000225
    ∧ statusAfter (exec .init (core .core .done (some .init) .sequence)) = some 0x00000000 := by decide

/-- 95_test_vectors.md 6.3: BLOCK after a finished message, and BLOCK while a BLOCK is in flight. -/
theorem test_block_errors :
    statusAfter (exec .block (core .host .done none .none)) = some 0x00000224
    ∧ statusAfter (exec .block (core .host .streaming (some .block) .none)) = some 0x00000035
    ∧ faultOf (exec .block (core .core .streaming (some .block) .none)) = some .unwrittenBufByte := by decide +kernel

/-- 95_test_vectors.md 6.3, 6.4: MLEN wraps with BLOCK; the error of a BLOCK in flight outlives it. -/
theorem test_block_completion :
    ∃ t, exec .block { core .core .streaming (some .block) .cmdBusy with
        buf := zeroBytes, mlen := 0xfffffffffffffc00 } = .next t ∧ t.mlen = 0 ∧ t.status = 0x00000034 := by
  refine ⟨_, (execBlock_core rfl).trans (if_pos ?_), ?_, ?_⟩ <;> decide +kernel

/-- 95_test_vectors.md 6.3: FINAL while `ERR = 1` is ignored; FINAL after a finished message is SEQUENCE. -/
theorem test_final_errors :
    statusAfter (exec (.final 3) (core .host .done none .sequence)) = some 0x00000224
    ∧ statusAfter (exec (.final 0) (core .host .done none .none)) = some 0x00000224
    ∧ faultOf (exec (.final 1) (core .core .finalizing (some (.final 1)) .none))
        = some .unwrittenBufByte := by decide +kernel

/-- 95_test_vectors.md 1.3: the empty message, `final 0` with no byte of BUF written. -/
theorem test_final_empty :
    ∃ t, exec (.final 0) (core .core .finalizing (some (.final 0)) .none) = .next t
      ∧ t.h = #v[0xcf83e1357eefb8bd, 0xf1542850d66d8007, 0xd620e4050b5715dc, 0x83f4a921d36ce9ce,
          0x47d0d13c5d85f2b0, 0xff8318d2877eec2f, 0x63b931bd47417a81, 0xa538327af927da3e]
      ∧ t.status = 0x00000202 := by
  refine ⟨_, (execFinal_core 0 rfl).trans (if_pos ?_), ?_, ?_⟩ <;> decide +kernel

/-- 95_test_vectors.md 6.3: a `BUF` write while FINAL 1 is in flight, and the refused accesses. -/
theorem test_window :
    statusAfter (hostWrite 1 1 0x62 (core .host .finalizing (some (.final 1)) .none)) = some 0x00000145
    ∧ faultOf (hostRead 0x80 4 State.reset) = some (.busRefused .wrongDirection)
    ∧ faultOf (hostWrite 0x04 8 0 State.reset) = some (.busRefused .misaligned)
    ∧ faultOf (hostWrite 0x00 4 0 State.reset) = some (.busRefused .wrongWidth)
    ∧ faultOf (hostRead 0x94 8 State.reset) = some (.busRefused .misaligned)
    ∧ faultOf (hostWrite 0x90 8 0 State.reset) = some (.busRefused .wrongDirection)
    ∧ faultOf (hostRead 0x88 4 State.reset) = some (.busRefused .reservedOffset) := by decide

/-- R26: a width-8 write puts the most significant byte at the lowest offset. -/
theorem test_wide_write :
    hostWrite 0x78 8 0x0102030405060708 State.reset = .next { State.reset with
      buf := [(0x78, 1), (0x79, 2), (0x7A, 3), (0x7B, 4), (0x7C, 5), (0x7D, 6), (0x7E, 7), (0x7F, 8)] } := by
  rfl

/-- R87 for the empty message: `final 0`, `wait`, and the reads of STATUS and `H[0..7]`. -/
theorem test_hashProgram_empty :
    hashProgram [] = [.access (.write 0x80 4 0x00000003), .wait, .access (.read 0x84 4),
      .access (.read 0x90 8), .access (.read 0x98 8), .access (.read 0xA0 8), .access (.read 0xA8 8),
      .access (.read 0xB0 8), .access (.read 0xB8 8), .access (.read 0xC0 8), .access (.read 0xC8 8)] := by
  decide

/-- R48: `wait` polls STATUS and stays while BUSY reads 1, and is over once it reads 0. -/
theorem test_wait :
    pollStatus [] { core .host .streaming (some .block) .none with host := [.wait] }
      = { core .host .streaming (some .block) .none with host := [.wait], reads := [.w32 0x00000001] }
    ∧ pollStatus [] { State.reset with host := [.wait] }
      = { State.reset with reads := [.w32 0x00000000] } := by
  constructor <;> rfl

/-! ## Witnesses of the statements' hypotheses, at boundary values -/

theorem test_witness_RotateRightPermutesBits :
    (1 ≤ 1 ∧ 1 ≤ 63 ∧ rotr 1 1 = 0x8000000000000000) ∧ (1 ≤ 63 ∧ 63 ≤ 63 ∧ rotr 1 63 = 2) := by decide

theorem test_witness_LogicalShiftRight :
    (64 - 7 ≤ 57 ∧ (shr (BitVec.allOnes 64) 7).getLsbD 57 = false)
    ∧ ((0x7f : Word).toNat < 2 ^ 7 ∧ shr 0x7f 7 = 0) := by decide

theorem test_witness_Sigmas :
    63 < 64 ∧ (smallSigma0 1).getLsbD 63 = true ∧ (bigSigma0 1).getLsbD 36 = true := by decide

theorem test_witness_PadderBuildsBlocks :
    (0 ≤ 127 ∧ 0 ≤ 111) ∧ (111 ≤ 127 ∧ 111 ≤ 111 ∧ (pad zeroBlock 111 8).pb0[111] = 0x80)
    ∧ (112 ≤ 127 ∧ 112 ≤ 112 ∧ (pad zeroBlock 112 8).pb1 = some (sealBlock zeroBlock 8))
    ∧ (127 ≤ 127 ∧ 112 ≤ 127 ∧ (pad zeroBlock 127 8).pb0[127] = 0x80) := by decide +kernel

theorem test_witness_PadderReadsOnlyValidBytes :
    (∀ k, (hk : k < 128) → k < 111 →
      (terminate zeroBlock 127)[k] = (terminate zeroBlock 120)[k])
    ∧ (terminate zeroBlock 127)[127] ≠ (terminate zeroBlock 120)[127] := by decide +kernel

theorem test_witness_ScheduleFramesAndRecurs :
    (15 < 16 ∧ 8 * 15 + 7 < 128 ∧ 7 < 8) ∧ (16 ≤ 16 ∧ 16 < 80) ∧ (16 ≤ 79 ∧ 79 < 80) ∧ (1 ≤ 14 ∧ 14 ≤ 14) := by
  decide

theorem test_witness_CompressRunsEightyRounds :
    ∃ reg : Nat → Work, reg 0 = loadWork iv
      ∧ ∀ t, t < 80 → reg (t + 1) = round (reg t) (kAt t) ((schedule zeroBlock).getD t 0) :=
  ⟨rounds (schedule zeroBlock) (loadWork iv), rfl, fun t _ => rounds_succ _ _ t⟩

theorem test_witness_DecodeAndEncodeAgree :
    (Instr.final 127).wellFormed = true ∧ decode 0x00007f03 = .ok (.final 127) := by decide

theorem test_witness_RegisterMap_reads :
    (ReadListed 0x84 4 ∧ ReadListed 0x90 8 ∧ ReadListed 0xC8 8 ∧ ReadListed 0xD0 8)
    ∧ (¬ ReadListed 0xD8 8 ∧ ¬ ReadListed 0x8F 4 ∧ ¬ ReadListed 0x80 4) := by
  refine ⟨⟨?_, ?_, ?_, ?_⟩, ?_, ?_, ?_⟩ <;> unfold ReadListed <;> decide

theorem test_witness_RegisterMap_writes :
    State.reset.turn = .host ∧ (WriteListed 0x7F 1 ∧ WriteListed 0x78 8 ∧ WriteListed 0x80 4)
    ∧ (¬ WriteListed 0x79 8 ∧ ¬ WriteListed 0x7F 4 ∧ ¬ WriteListed 0x84 4 ∧ ¬ WriteListed 0xFF 1) := by
  refine ⟨rfl, ⟨?_, ?_, ?_⟩, ?_, ?_, ?_, ?_⟩ <;> unfold WriteListed <;> decide

theorem test_witness_PlatformAddressesOfTheWindow :
    windowOffset (Config.coreBase + 0xFF) = some 0xFF
    ∧ ∀ off : BitVec 8, Config.coreBase + 256 ≠ Config.coreBase + off.toNat := by
  refine ⟨?_, fun off h => ?_⟩
  · unfold windowOffset; rw [if_pos (by omega), Nat.add_sub_cancel_left]; rfl
  · have := off.isLt; omega

theorem test_witness_LegalWordsAreTheCommands :
    (0x00007f03 : BitVec 32) &&& 0xFFFF80FF = 0x00000003 ∧ legalWord 0x00007f03 = true
    ∧ legalWord 0x00008003 = false ∧ State.reset.turn = .host
    ∧ (core .host .streaming (some .block) .none).turn = .host := by decide

theorem test_witness_DigestAndLengthReads :
    State.reset.busy = false ∧ (core .host .streaming (some .block) .none).busy = true := by decide

theorem test_witness_BufferWrites :
    Memory.wf State.reset.buf ∧ State.reset.busy = false
    ∧ (0x7F : BitVec 8).toNat ≤ 0x7F ∧ (0x7F : BitVec 8).toNat % 8 ≠ 0
    ∧ (0x78 : BitVec 8).toNat ≤ 0x7F ∧ (0x78 : BitVec 8).toNat % 8 = 0
    ∧ (4 : Nat) ≠ 1 ∧ (4 : Nat) ≠ 8 ∧ (0x7F : BitVec 8) ≠ 0x00
    ∧ Memory.wf (core .host .streaming (some .block) .none).buf
    ∧ (core .host .streaming (some .block) .none).busy = true := by decide

theorem test_witness_WideWriteIsEightByteWrites :
    (0x78 : BitVec 8).toNat ≤ 0x7F ∧ (0x78 : BitVec 8).toNat % 8 = 0
    ∧ (0x78 : BitVec 8) + BitVec.ofNat 8 7 = 0x7F := by decide

/-- One state for each test of R80: busy, an illegal word, INIT, `ERR = 1`, DONE, and an accepted BLOCK and FINAL. -/
theorem test_witness_CommandWriteFollowsTheTests :
    ((core .host .streaming (some .block) .none).turn = .host
      ∧ (core .host .streaming (some .block) .none).busy = true)
    ∧ (State.reset.turn = .host ∧ State.reset.busy = false
      ∧ decode ((0x80000003 : Word).extractLsb' 0 32) = .error .illegal)
    ∧ decode ((0x00000001 : Word).extractLsb' 0 32) = .ok .init
    ∧ decode ((0x00000002 : Word).extractLsb' 0 32) = .ok .block
    ∧ decode ((0x00007f03 : Word).extractLsb' 0 32) = .ok (.final 127)
    ∧ ((core .host .streaming none .illegalCmd).busy = false ∧ (core .host .streaming none .illegalCmd).err = true)
    ∧ ((core .host .done none .none).busy = false ∧ (core .host .done none .none).err = false
      ∧ (core .host .done none .none).ctrl = .done)
    ∧ (State.reset.err = false ∧ State.reset.ctrl ≠ .done) := by decide

/-- The clauses of the three acceptance statements, with a word whose `OP` is the command's and is not legal. -/
theorem test_witness_Acceptance :
    (State.reset.turn = .host ∧ State.reset.busy = false ∧ State.reset.err = false
      ∧ State.reset.ctrl = .streaming)
    ∧ ((core .host .finalizing (some (.final 127)) .none).turn = .host
      ∧ (core .host .finalizing (some (.final 127)) .none).busy = true)
    ∧ (fieldOp 0x00000101 = 1 ∧ (0x00000101 : BitVec 32) ≠ 0x00000001)
    ∧ (fieldOp 0x00000012 = 2 ∧ (0x00000012 : BitVec 32) ≠ 0x00000002)
    ∧ (fieldOp 0x00008003 = 3 ∧ (0x00008003 : BitVec 32) &&& 0xFFFF80FF ≠ 0x00000003)
    ∧ ((core .host .streaming none .illegalCmd).turn = .host ∧ (core .host .streaming none .illegalCmd).busy = false
      ∧ (core .host .streaming none .illegalCmd).err = true)
    ∧ ((core .host .done none .none).turn = .host ∧ (core .host .done none .none).busy = false
      ∧ (core .host .done none .none).err = false ∧ (core .host .done none .none).ctrl = .done)
    ∧ (core .host .done none .none).status = 0x00000202 := by decide

theorem test_witness_FirstErrorIsKept :
    State.reset.err = false ∧ (core .host .done none .sequence).err = true := by decide

theorem test_witness_CommandErrorsAndTheirCodes :
    (State.reset.turn = .host ∧ State.reset.err = false ∧ State.reset.busy = false
      ∧ decode 0x00000000 = .error .illegal)
    ∧ ((core .host .done none .none).turn = .host ∧ (core .host .done none .none).err = false
      ∧ (core .host .done none .none).busy = false ∧ (core .host .done none .none).ctrl = .done
      ∧ decode 0x00000002 = .ok .block ∧ decode 0x00007f03 = .ok (.final 127))
    ∧ ((core .host .streaming (some .init) .none).turn = .host
      ∧ (core .host .streaming (some .init) .none).err = false
      ∧ (core .host .streaming (some .init) .none).busy = true) := by decide

theorem test_witness_BusyBufferWriteIsDropped :
    (core .host .finalizing (some (.final 1)) .none).busy = true ∧ (0x7F : BitVec 8).toNat ≤ 0x7F
    ∧ (0x78 : BitVec 8).toNat ≤ 0x7F ∧ (0x78 : BitVec 8).toNat % 8 = 0 := by decide

theorem test_witness_AcceptanceFrame :
    ∀ i : Instr, (core .host .streaming none .sequence).turn = .host
      ∧ ∃ t, exec i (core .host .streaming none .sequence) = .next t :=
  fun i => ⟨rfl, _, exec_host i _ rfl⟩

theorem test_witness_InitCompletion :
    (core .core .done (some .init) .sequence).turn = .core := by decide

/-- All 128 bytes marked, and MLEN where BLOCK wraps it; and a state with one byte of the 128 unmarked. -/
theorem test_witness_BlockCompletion :
    (({ core .core .streaming (some .block) .none with buf := zeroBytes } : State).turn = .core
      ∧ ∀ k, (hk : k < 128) → Memory.read? zeroBytes k = some (zeroBlock[k]))
    ∧ (0xfffffffffffffc00 : Word).toNat = 2 ^ 64 - 1024
    ∧ ((core .core .streaming (some .block) .none).turn = .core
      ∧ 127 < 128 ∧ Memory.read? (zeroBytes.take 127) 127 = none) := by decide +kernel

/-- The least, the two middle and the largest valid count, and an unmarked byte just below the largest. -/
theorem test_witness_FinalCompletion :
    (core .core .finalizing (some (.final 0)) .none).turn = .core
    ∧ (∀ k, (hk : k < 128) → k < (0 : BitVec 7).toNat → Memory.read? [] k = some (zeroBlock[k]))
    ∧ (∀ k, (hk : k < 128) → k < (111 : BitVec 7).toNat →
        Memory.read? (zeroBytes.take 111) k = some (zeroBlock[k]))
    ∧ (∀ k, (hk : k < 128) → k < (112 : BitVec 7).toNat →
        Memory.read? (zeroBytes.take 112) k = some (zeroBlock[k]))
    ∧ (∀ k, (hk : k < 128) → k < (127 : BitVec 7).toNat →
        Memory.read? (zeroBytes.take 127) k = some (zeroBlock[k]))
    ∧ (pad zeroBlock 111 0).pb1 = none ∧ (pad zeroBlock 112 0).pb1 = some zeroBlock
    ∧ (126 < (127 : BitVec 7).toNat ∧ Memory.read? (zeroBytes.take 126) 126 = none) := by decide +kernel

theorem test_witness_UnwrittenByteIsAFault :
    (core .core .finalizing (some (.final 127)) .none).turn = .core := by decide

theorem test_witness_CompletionFrame :
    ∃ s t : State, s.turn = .core ∧ exec .init s = .next t ∧ (∃ u, exec (.final 0) s = .next u)
      ∧ ∃ u, exec .block { s with buf := zeroBytes } = .next u :=
  ⟨core .core .streaming (some .init) .none, _, rfl, rfl,
    ⟨_, (execFinal_core 0 rfl).trans (if_pos (by decide +kernel))⟩,
    ⟨_, (execBlock_core rfl).trans (if_pos (by decide +kernel))⟩⟩

/-- Two states that agree on the valid bytes and differ in the bytes behind them, in ERR and in the draws. -/
theorem test_witness_FinalDependsOnlyOnValidBytes :
    ∃ s u t : State, s.turn = .core ∧ u.turn = .core ∧ s.h = u.h ∧ s.mlen = u.mlen
      ∧ (∀ k, k < (127 : BitVec 7).toNat → Memory.read? s.buf k = Memory.read? u.buf k)
      ∧ exec (.final 127) s = .next t ∧ Memory.read? s.buf 127 ≠ Memory.read? u.buf 127
      ∧ s.err ≠ u.err ∧ s.fresh ≠ u.fresh :=
  ⟨{ core .core .finalizing (some (.final 127)) .none with buf := zeroBytes },
    { core .core .finalizing (some (.final 127)) .cmdBusy with buf := zeroBytes.take 127, fresh := 5 }, _,
    rfl, rfl, rfl, rfl, by decide +kernel, (execFinal_core 127 rfl).trans (if_pos (by decide +kernel)),
    by decide +kernel, by decide, by decide⟩

/-- A core that stands for a message of one block of zeros, with the next bytes in `BUF`. -/
def afterOneBlock (turn : Agent) (buf : List Host.Cell) : State :=
  { core turn .streaming none .none with
    h := absorbed (blocksOf (List.replicate 128 0)), mlen := 1024, buf := buf }

theorem test_afterOneBlock_standsFor (turn : Agent) (buf : List Host.Cell) :
    StandsFor (afterOneBlock turn buf) (List.replicate 128 0) := by
  simp [StandsFor, afterOneBlock]

theorem test_witness_InitStartsAMessage : (afterOneBlock .core []).turn = .core := by decide

theorem test_witness_BlockExtendsTheMessage :
    (afterOneBlock .core zeroBytes).turn = .core
    ∧ StandsFor (afterOneBlock .core zeroBytes) (List.replicate 128 0)
    ∧ (List.replicate 128 (0 : Byte)).length = 128
    ∧ Holds (afterOneBlock .core zeroBytes) (List.replicate 128 0) :=
  ⟨rfl, test_afterOneBlock_standsFor _ _, by simp, by unfold Holds; decide +kernel⟩

theorem test_witness_FinalGivesTheMessageDigest :
    (afterOneBlock .core zeroBytes).turn = .core
    ∧ StandsFor (afterOneBlock .core zeroBytes) (List.replicate 128 0)
    ∧ (List.replicate 127 (0 : Byte)).length = (127 : BitVec 7).toNat
    ∧ Holds (afterOneBlock .core zeroBytes) (List.replicate 127 0)
    ∧ (([] : List Byte).length = (0 : BitVec 7).toNat ∧ Holds (afterOneBlock .core []) [])
    ∧ (afterOneBlock .core zeroBytes).err = false ∧ (afterOneBlock .core zeroBytes).errcode = .none :=
  ⟨rfl, test_afterOneBlock_standsFor _ _, by simp, by unfold Holds; decide +kernel,
    ⟨rfl, fun k hk => by simp at hk⟩, rfl, rfl⟩

/-! ### The step -/

/-- The host's turn with one line, the core's turn, and reset, as the head of the order. -/
def withTurn (t : Turn) (host : List HostOp) (s : State) : State := { s with sched := [t], host := host }

theorem test_witness_StepRunsTheWrittenCommand :
    (withTurn (.agent .host) [.access (.write 0x80 4 0x00007f03)] State.reset).nextTurn = .agent .host
    ∧ decode ((0x00007f03 : Word).extractLsb' 0 32) = .ok (.final 127)
    ∧ decodeTableWord 32 0x00007f03 = some (.final 127) := by decide

theorem test_witness_StepCompletesTheCommandInFlight :
    ((core .host .streaming (some .block) .none).nextTurn = .agent .core
      ∧ (core .host .streaming (some .block) .none).busy = true
      ∧ (core .host .streaming (some .block) .none).pend = some .block)
    ∧ ((withTurn (.agent .core) [] State.reset).nextTurn = .agent .core
      ∧ (withTurn (.agent .core) [] State.reset).busy = false) := by decide

/-- A line of each kind; and the host's line when there is none. -/
theorem test_witness_StepServesTheHost :
    (withTurn (.agent .host) [.access (.read 0x84 4)] State.reset).nextTurn = .agent .host
    ∧ (withTurn (.agent .host) [.wait] (core .core .streaming (some .block) .none)).nextTurn = .agent .host
    ∧ (withTurn (.agent .host) [] State.reset).nextTurn = .agent .host := by decide

theorem test_witness_ResetEvent :
    (withTurn .reset [] (core .core .finalizing (some (.final 3)) .bufBusy)).nextTurn = .reset := by decide

/-! ### Invariants -/

/-- The invariant holds of a core in flight, with each command, at `BUF`'s last byte and with an error kept. -/
theorem test_inv_in_flight (i : Instr) (code : ErrCode) (sched : List Turn) (host : List HostOp) :
    Inv { core .host (acceptedCtrl .streaming i) (some i) code with
      buf := [(0, 0x61), (127, 0xff)], sched := sched, host := host } where
  buf_wf := by simp [Memory.wf]
  busy_pend := rfl
  finalizing := by cases i <;> simp [core, acceptedCtrl]
  block_streaming := by cases i <;> simp [core, acceptedCtrl]
  err_code := by simp [core]
  mlen_bytes := rfl
  mlen_blocks := fun _ => rfl

/-- The invariant holds of a finished message and of an idle core. -/
theorem test_inv_idle (done : Bool) (code : ErrCode) (sched : List Turn) (host : List HostOp) :
    Inv { core .host (if done then .done else .streaming) none code with sched := sched, host := host } where
  buf_wf := Memory.wf_nil
  busy_pend := rfl
  finalizing := by cases done <;> simp [core]
  block_streaming := by simp [core]
  err_code := by simp [core]
  mlen_bytes := rfl
  mlen_blocks := fun _ => rfl

/-- The idle core that BLOCK's acceptance speaks of, under the invariant. -/
theorem test_witness_BlockAcceptance_invariant :
    ∃ s : State, Inv s ∧ s.busy = false ∧ s.ctrl = .streaming :=
  ⟨_, test_inv_idle false .none [] [], rfl, rfl⟩

/-- A step from a state that meets the invariant: the completion of FINAL 0 in flight. -/
theorem test_witness_Invariant :
    ∃ s t : State, Inv s ∧ step s = .next t ∧ s.ctrl = .finalizing ∧ t.ctrl = .done :=
  ⟨_, _, test_inv_in_flight (.final 0) .none [.agent .core] [],
    ((by rfl : step _ = exec (.final 0) { core .core .finalizing (some (.final 0)) .none with
        buf := [(0, 0x61), (127, 0xff)] })).trans
      ((execFinal_core 0 rfl).trans (if_pos (by decide +kernel))), rfl, rfl⟩

/-- Each change that `OnlyTheRulesWritersWrite` speaks of happens: `H` by a completion and `BUF` by the host. -/
theorem test_witness_OnlyTheRulesWritersWrite :
    (∃ s t : State, step s = .next t ∧ t.mlen ≠ s.mlen)
    ∧ ∃ s t : State, step s = .next t ∧ t.buf ≠ s.buf := by
  refine ⟨⟨{ core .host .streaming (some .init) .none with mlen := 8 }, _, rfl, by decide⟩,
    ⟨withTurn (.agent .host) [.access (.write 0x7F 1 0x61)] State.reset, _, rfl, by decide⟩⟩

theorem test_witness_HostCannotReachTheCommandInFlight :
    ∃ s t : State, s.busy = true ∧ s.nextTurn = .agent .host ∧ step s = .next t ∧ t.err = true :=
  ⟨withTurn (.agent .host) [.access (.write 0x7F 1 0x61)] (core .core .streaming (some .block) .none), _,
    rfl, rfl, rfl, rfl⟩

/-- Both clauses: INIT's completion clears the error, an absorbed CMD write keeps it. -/
theorem test_witness_ErrorsAreSticky :
    (∃ s t : State, s.err = true ∧ step s = .next t
      ∧ s.nextTurn = .agent .core ∧ s.busy = true ∧ s.pend = some .init)
    ∧ (∃ s t : State, s.err = true ∧ step s = .next t ∧ s.nextTurn = .agent .host) :=
  ⟨⟨core .host .done (some .init) .sequence, _, rfl, rfl, rfl, rfl, rfl⟩,
    ⟨withTurn (.agent .host) [.access (.write 0x80 4 0x0000000f)] (core .host .done none .sequence), _,
      rfl, rfl, rfl⟩⟩

/-- INIT accepted with `ERR = 1`, and BLOCK turned away with it; a completion of INIT that clears it; reset. -/
theorem test_witness_NoBlockAfterAnError :
    ((core .host .streaming none .bufBusy).turn = .host ∧ (core .host .streaming none .bufBusy).busy = false
      ∧ (core .host .streaming none .bufBusy).err = true ∧ decode 0x00000002 = .ok .block
      ∧ decode 0x00007f03 = .ok (.final 127))
    ∧ (∃ s t : State, s.err = true ∧ step s = .next t ∧ s.busy = false ∧ t.busy = true ∧ t.err = true)
    ∧ (∃ s t : State, s.err = true ∧ step s = .next t ∧ t.err = false)
    ∧ (∃ s t : State, s.err = true ∧ step s = .next t ∧ s.busy = false ∧ t.h ≠ s.h) :=
  ⟨by decide, ⟨(core .host .streaming none .illegalCmd).withFetchWord 32 1, _, rfl, rfl, rfl, rfl, rfl⟩,
    ⟨core .host .streaming (some .init) .illegalCmd, _, rfl, rfl, rfl⟩,
    ⟨withTurn .reset [] { core .host .done none .sequence with h := Vector.replicate 8 0 }, _,
      rfl, rfl, rfl, by decide⟩⟩

theorem test_witness_DigestBecomesValidOnlyByFinal :
    ∃ s t : State, Inv s ∧ step s = .next t ∧ s.dvalid = false ∧ t.dvalid = true :=
  ⟨_, _, test_inv_in_flight (.final 0) .none [.agent .core] [],
    ((by rfl : step _ = exec (.final 0) { core .core .finalizing (some (.final 0)) .none with
        buf := [(0, 0x61), (127, 0xff)] })).trans
      ((execFinal_core 0 rfl).trans (if_pos (by decide +kernel))), rfl, rfl⟩

/-- Two polls before the completion of a FINAL, with a reset to follow; and no poll at all. -/
theorem test_witness_AcceptedCommandCompletes :
    (∃ s : State, Inv s ∧ s.busy = true
      ∧ s.sched = List.replicate 2 (.agent .host) ++ .agent .core :: [.reset])
    ∧ ∃ s : State, Inv s ∧ s.busy = true ∧ s.sched = List.replicate 0 (.agent .host) ++ .agent .core :: [] :=
  ⟨⟨_, test_inv_in_flight (.final 127) .bufBusy [.agent .host, .agent .host, .agent .core, .reset] [.wait],
      rfl, rfl⟩,
    ⟨_, test_inv_in_flight .block .none [.agent .core] [], rfl, rfl⟩⟩

end Sys2Proof.Tests
end

namespace Sys2Proof.Machine

/-- A byte appended at the low end: the number so far shifted up by one byte, plus the byte. -/
theorem toNat_append_byte {n : Nat} (v : BitVec n) (b : Byte) :
    (v ++ b).toNat = v.toNat * 2 ^ 8 + b.toNat := by
  rw [BitVec.toNat_append, ← Nat.shiftLeft_add_eq_or_of_lt b.isLt, Nat.shiftLeft_eq]

/-- `BE64` as a number (R9): appending the bytes one by one evaluates the sum by Horner's scheme. -/
theorem beWord_toNat (b : Fin 8 → Byte) :
    (beWord b).toNat = ∑ k : Fin 8, (b k).toNat * 2 ^ (8 * (7 - k.val)) := by
  simp only [beWord, toNat_append_byte, Fin.sum_univ_eight, Fin.coe_ofNat_eq_mod]
  ring

/-- `BEBYTES` after `BE64`: bit `56 - 8k + i` of the word is bit `i` of byte `k` (R9). -/
theorem beByte_beWord (b : Fin 8 → Byte) (k : Fin 8) : beByte (beWord b) k.val = b k := by
  refine BitVec.eq_of_getLsbD_eq fun i hi => ?_
  have byte_index : (⟨7 - (56 - 8 * k.val + i) / 8, by omega⟩ : Fin 8) = k := by
    ext; dsimp only; omega
  have bit_index : (56 - 8 * k.val + i) % 8 = i := by omega
  rw [beByte_getLsbD _ _ _ hi, beWord_getLsbD _ _ (by omega), byte_index, bit_index]

/-- `BE64` after `BEBYTES`: bit `i` lies in byte `7 - i / 8` at bit `i mod 8` (R9). -/
theorem beWord_beByte (v : Word) : beWord (fun k => beByte v k.val) = v := by
  refine BitVec.eq_of_getLsbD_eq fun i hi => ?_
  have bit_index : 56 - 8 * (7 - i / 8) + i % 8 = i := by omega
  rw [beWord_getLsbD _ _ hi, beByte_getLsbD _ _ _ (by omega), bit_index]

/-- Settles O7: the value of a big-endian word, and the two inverse laws bit by bit. -/
theorem bigEndianWordsAndBytes : Obligations.BigEndianWordsAndBytes :=
  ⟨beWord_toNat, beByte_beWord, beWord_beByte⟩

end Sys2Proof.Machine

/-! ### The invariant -/

namespace Sys2Proof.Machine

/-- The invariant reads seven fields, so a state that agrees in them has it too. -/
theorem Inv.of_same_fields {s t : State} (hi : Inv s)
    (h : t.buf = s.buf ∧ t.busy = s.busy ∧ t.pend = s.pend ∧ t.ctrl = s.ctrl ∧ t.err = s.err
      ∧ t.errcode = s.errcode ∧ t.mlen = s.mlen) : Inv t := by
  obtain ⟨hbuf, hbusy, hpend, hctrl, herr, hcode, hmlen⟩ := h
  exact
    { buf_wf := hbuf ▸ hi.buf_wf
      busy_pend := by rw [hbusy, hpend]; exact hi.busy_pend
      finalizing := by rw [hctrl, hpend]; exact hi.finalizing
      block_streaming := by rw [hctrl, hpend]; exact hi.block_streaming
      err_code := by rw [herr, hcode]; exact hi.err_code
      mlen_bytes := hmlen ▸ hi.mlen_bytes
      mlen_blocks := by rw [hctrl, hmlen]; exact hi.mlen_blocks }

/-- Settles O49: the values of R23, field by field. -/
theorem invariantAtReset : Obligations.InvariantAtReset where
  buf_wf := Memory.wf_nil
  busy_pend := rfl
  finalizing := by simp [State.reset]
  block_streaming := by simp [State.reset]
  err_code := by simp [State.reset]
  mlen_bytes := rfl
  mlen_blocks := fun _ => rfl

/-- The reset event gives the invariant to any state: the fields it speaks of are those of reset. -/
theorem Inv.resetEvent (s : State) : Inv s.resetEvent :=
  invariantAtReset.of_same_fields ⟨rfl, rfl, rfl, rfl, rfl, rfl, rfl⟩

/-- Between commands nothing is in flight, and the control state is not FINALIZING. -/
theorem Inv.pend_none_of_idle {s : State} (hi : Inv s) (h : s.busy = false) :
    s.pend = none ∧ s.ctrl ≠ .finalizing := by
  have hp : s.pend = none := by simpa [h] using hi.busy_pend.symm
  exact ⟨hp, by simp [hi.finalizing, hp]⟩

/-- Recording an error keeps the invariant: the code recorded is an error's. -/
theorem Inv.raiseIfErr {s : State} (hi : Inv s) {code : ErrCode} (hcode : code ≠ .none) :
    Inv (s.raiseIfErr code) where
  buf_wf := by simpa using hi.buf_wf
  busy_pend := by simpa using hi.busy_pend
  finalizing := by simpa using hi.finalizing
  block_streaming := by simpa using hi.block_streaming
  err_code := by
    cases he : s.err with
    | false => simpa [he] using hcode
    | true => simpa [he] using hi.err_code.mp he
  mlen_bytes := by simpa using hi.mlen_bytes
  mlen_blocks := by simpa using hi.mlen_blocks

/-- Acceptance while idle keeps the invariant: BLOCK and FINAL are taken in STREAMING only, the one
control state left when DONE is excluded. -/
theorem Inv.accept {s : State} (hi : Inv s) (hidle : s.busy = false) {c : Instr}
    (hc : c = .init ∨ s.ctrl ≠ .done) : Inv (s.accept c) := by
  have hfin : s.ctrl ≠ .finalizing := (hi.pend_none_of_idle hidle).2
  exact
    { buf_wf := hi.buf_wf
      busy_pend := rfl
      finalizing := by cases c <;> simp [acceptedCtrl, hfin]
      block_streaming := by
        intro hb
        obtain rfl : c = .block := by simpa using hb
        have hdone : s.ctrl ≠ .done := by simpa using hc
        cases hs : s.ctrl <;> simp_all [acceptedCtrl]
      err_code := hi.err_code
      mlen_bytes := hi.mlen_bytes
      mlen_blocks := by
        cases c with
        | init | block => exact hi.mlen_blocks
        | final n => exact fun _ => hi.mlen_blocks (by simpa using hc) }

/-- Every outcome of R80's test sequence keeps the invariant. -/
theorem Inv.writeCommand {s : State} (hi : Inv s) (c : Option Instr) : Inv (s.writeCommand c) := by
  cases hb : s.busy with
  | true => rw [State.writeCommand_of_busy hb]; exact hi.raiseIfErr (by simp)
  | false =>
    cases c with
    | none => rw [State.writeCommand_of_illegal hb]; exact hi.raiseIfErr (by simp)
    | some c =>
      rw [State.writeCommand_of_legal hb]
      obtain ⟨he, hc⟩ | ⟨he, -, -⟩ | ⟨he, -, -, -⟩ := State.admit_cases s c <;> rw [he]
      · exact hi.accept hb (hc.imp_right And.right)
      · exact hi
      · exact hi.raiseIfErr (by simp)

/-- A write inside `BUF`, stored or dropped, keeps the invariant. -/
theorem Inv.storeBytes {s : State} (hi : Inv s) {k : Nat} {bs : List Byte}
    (hk : k + bs.length ≤ 128) : Inv (s.storeBytes k bs) := by
  cases hb : s.busy with
  | true => rw [State.storeBytes_of_busy hb]; exact hi.raiseIfErr (by simp)
  | false =>
    rw [State.storeBytes_of_idle hb]
    exact { hi with buf_wf := Memory.wf_writeBytes bs hi.buf_wf hk }

/-- INIT's completion keeps the invariant. -/
theorem Inv.completeInit {s : State} (hi : Inv s) : Inv (completeInit s) where
  buf_wf := hi.buf_wf
  busy_pend := rfl
  finalizing := by simp
  block_streaming := by simp
  err_code := by simp
  mlen_bytes := rfl
  mlen_blocks := fun _ => rfl

/-- BLOCK's completion keeps the invariant: it is in flight in STREAMING only, where MLEN counts whole
blocks, and adds one. -/
theorem Inv.completeBlock {s : State} (hi : Inv s) (hp : s.pend = some .block) :
    Inv (completeBlock s) := by
  have hctrl : s.ctrl = .streaming := hi.block_streaming hp
  have hmlen : (s.mlen + 1024).toNat % 1024 = 0 := by
    have := hi.mlen_blocks (by simp [hctrl])
    rw [BitVec.toNat_add, show BitVec.toNat (1024 : Word) = 1024 from rfl]
    omega
  exact
    { buf_wf := hi.buf_wf
      busy_pend := rfl
      finalizing := by simp [hctrl]
      block_streaming := by simp
      err_code := hi.err_code
      mlen_bytes := by rw [completeBlock_mlen]; omega
      mlen_blocks := fun _ => hmlen }

/-- FINAL's completion keeps the invariant: MLEN grows by whole bytes, and the message is done. -/
theorem Inv.completeFinal {s : State} (hi : Inv s) (n : Nat) : Inv (completeFinal n s) where
  buf_wf := Memory.wf_nil
  busy_pend := rfl
  finalizing := by simp
  block_streaming := by simp
  err_code := hi.err_code
  mlen_bytes := by
    have := hi.mlen_bytes
    rw [completeFinal_mlen, BitVec.toNat_add, BitVec.toNat_mul, show BitVec.toNat (8 : Word) = 8 from rfl]
    omega
  mlen_blocks := by simp

/-- A host step keeps the invariant. -/
theorem Inv.hostStep {s t : State} (hi : Inv s) (hs : s.turn = .host) (h : hostStep s = .next t) :
    Inv t := by
  have line_taken (rest : List HostOp) : Inv { s with host := rest } :=
    hi.of_same_fields ⟨rfl, rfl, rfl, rfl, rfl, rfl, rfl⟩
  obtain rfl | ⟨rest, rfl⟩ | ⟨_, rest, rfl, rfl | ⟨v, rfl⟩ | ⟨_, _, _, k, bs, _, _, hk, rfl⟩ | ⟨c, rfl⟩⟩ :=
    hostStep_cases hs h
  · exact hi
  · exact hi.of_same_fields (by simp)
  · exact hi.of_same_fields (by simp)
  · exact hi.of_same_fields (by simp)
  · exact (line_taken rest).storeBytes hk
  · exact (line_taken rest).writeCommand c

/-- A core step keeps the invariant. -/
theorem Inv.coreStep {s t : State} (hi : Inv s) (hs : s.turn = .core) (h : coreStep s = .next t) :
    Inv t := by
  obtain ⟨-, rfl⟩ | ⟨-, i, hp, hx⟩ := coreStep_cases h
  · exact hi
  · obtain ⟨-, rfl⟩ | ⟨rfl, -, rfl⟩ | ⟨n, -, -, rfl⟩ := exec_core_cases hs hx
    · exact hi.completeInit
    · exact hi.completeBlock hp
    · exact hi.completeFinal _

/-- Settles O50: a host step, a core step and the reset event keep the invariant, each by its own lemma. -/
theorem invariantIsKept : Obligations.InvariantIsKept := by
  intro s t hi h
  have turn_taken (a : Agent) : Inv { s with sched := s.sched.tail, turn := a } :=
    hi.of_same_fields ⟨rfl, rfl, rfl, rfl, rfl, rfl, rfl⟩
  obtain ⟨-, h⟩ | ⟨-, h⟩ | ⟨-, rfl⟩ := step_cases h
  · exact (turn_taken .host).hostStep rfl h
  · exact (turn_taken .core).coreStep rfl h
  · exact Inv.resetEvent _

end Sys2Proof.Machine

/-! ### Who writes `H`, MLEN and `BUF` -/

namespace Sys2Proof.Machine

@[simp] theorem State.storeBytes_buf (s : State) (k : Nat) (bs : List Byte) :
    (s.storeBytes k bs).buf = if s.busy then s.buf else Memory.writeBytes s.buf k bs := by
  unfold State.storeBytes; split <;> simp

/-- No host step writes `H` or MLEN. -/
theorem hostStep_h_mlen {s t : State} (hs : s.turn = .host) (h : hostStep s = .next t) :
    t.h = s.h ∧ t.mlen = s.mlen := by
  obtain rfl | ⟨_, rfl⟩ | ⟨_, _, rfl, rfl | ⟨_, rfl⟩ | ⟨_, _, _, _, _, _, _, _, rfl⟩ | ⟨_, rfl⟩⟩ :=
    hostStep_cases hs h <;> simp

/-- The host step that changes `BUF` is a write inside it that finds the core idle. -/
theorem hostStep_changes_buf {s t : State} (hs : s.turn = .host) (h : hostStep s = .next t)
    (hbuf : t.buf ≠ s.buf) :
    s.busy = false
    ∧ ∃ off n v rest, s.host = .access (.write off n v) :: rest ∧ off.toNat ≤ 0x7F := by
  obtain rfl | ⟨_, rfl⟩ | ⟨_, rest, rfl, rfl | ⟨_, rfl⟩ | ⟨off, n, v, k, bs, hhost, hoff, -, rfl⟩ | ⟨_, rfl⟩⟩ :=
    hostStep_cases hs h
  case inr.inr.inr.inr.inl =>
    have idle : s.busy = false := by
      cases hb : s.busy with
      | false => rfl
      | true => simp [hb] at hbuf
    exact ⟨idle, off, n, v, rest, hhost, hoff⟩
  all_goals simp at hbuf

/-- The core step that changes a state completes a command in flight. -/
theorem coreStep_in_flight_of_ne {s t : State} (h : coreStep s = .next t) (hne : t ≠ s) :
    s.busy = true ∧ ∃ i, s.pend = some i ∧ exec i s = .next t := by
  obtain ⟨-, ht⟩ | hflight := coreStep_cases h
  · exact absurd ht hne
  · exact hflight

/-- The core step that changes `BUF` completes a FINAL. -/
theorem coreStep_changes_buf {s t : State} (hs : s.turn = .core) (h : coreStep s = .next t)
    (hbuf : t.buf ≠ s.buf) : s.busy = true ∧ ∃ n, s.pend = some (.final n) := by
  obtain ⟨hbusy, i, hpend, hx⟩ := coreStep_in_flight_of_ne h (fun ht => hbuf (ht ▸ rfl))
  obtain ⟨-, rfl⟩ | ⟨-, -, rfl⟩ | ⟨n, rfl, -, -⟩ := exec_core_cases hs hx
  · simp at hbuf
  · simp at hbuf
  · exact ⟨hbusy, n, hpend⟩

/-- Settles O52: by the agent whose step it is. -/
theorem onlyTheRulesWritersWrite : Obligations.OnlyTheRulesWritersWrite := by
  intro s t h
  obtain ⟨hturn, h⟩ | ⟨hturn, h⟩ | ⟨hturn, -⟩ := step_cases h
  · obtain ⟨hh, hmlen⟩ := hostStep_h_mlen rfl h
    have buf_writer := hostStep_changes_buf rfl h
    exact ⟨fun hne => by simp [hh, hmlen] at hne, fun hne => .inr (.inr ⟨hturn, buf_writer hne⟩)⟩
  · have buf_writer := coreStep_changes_buf rfl h
    refine ⟨fun hne => ?_, fun hne => .inr (.inl ⟨hturn, buf_writer hne⟩)⟩
    obtain ⟨hbusy, i, hpend, -⟩ := coreStep_in_flight_of_ne h (by rintro rfl; simp at hne)
    exact .inr ⟨hturn, hbusy, Option.ne_none_iff_exists'.mpr ⟨i, hpend⟩⟩
  · exact ⟨fun _ => .inl hturn, fun _ => .inl hturn⟩

end Sys2Proof.Machine

/-! ### No step reads the internal state -/

namespace Sys2Proof.Machine

/-- `s` with the internal state `x` (R20, R21, R22) in place of its own. -/
def State.withScratch (s : State) (x : Scratch) : State := { s with scratch := x }

/-- Two outcomes of a step agree when they are the same but for the internal state of the next state. -/
def AgreesUpToScratch (o o' : Host.Outcome State Fault Refusal) : Prop :=
  match o with
  | .next t => ∃ y, o' = .next (t.withScratch y)
  | .fault r => o' = .fault r
  | .refused r => o' = .refused r

theorem AgreesUpToScratch.next (t : State) (y : Scratch) :
    AgreesUpToScratch (.next t) (.next (t.withScratch y)) := ⟨y, rfl⟩

theorem AgreesUpToScratch.refl (o : Host.Outcome State Fault Refusal) : AgreesUpToScratch o o := by
  cases o with
  | next t => exact .next t t.scratch
  | fault r | refused r => rfl

section withScratch
variable (s : State) (x : Scratch)

@[simp] theorem State.withScratch_h : (s.withScratch x).h = s.h := rfl
@[simp] theorem State.withScratch_mlen : (s.withScratch x).mlen = s.mlen := rfl
@[simp] theorem State.withScratch_ctrl : (s.withScratch x).ctrl = s.ctrl := rfl
@[simp] theorem State.withScratch_busy : (s.withScratch x).busy = s.busy := rfl
@[simp] theorem State.withScratch_err : (s.withScratch x).err = s.err := rfl
@[simp] theorem State.withScratch_errcode : (s.withScratch x).errcode = s.errcode := rfl
@[simp] theorem State.withScratch_buf : (s.withScratch x).buf = s.buf := rfl
@[simp] theorem State.withScratch_pend : (s.withScratch x).pend = s.pend := rfl
@[simp] theorem State.withScratch_host : (s.withScratch x).host = s.host := rfl
@[simp] theorem State.withScratch_sched : (s.withScratch x).sched = s.sched := rfl
@[simp] theorem State.withScratch_reads : (s.withScratch x).reads = s.reads := rfl
@[simp] theorem State.withScratch_turn : (s.withScratch x).turn = s.turn := rfl
@[simp] theorem State.withScratch_fresh : (s.withScratch x).fresh = s.fresh := rfl
@[simp] theorem State.withScratch_status : (s.withScratch x).status = s.status := rfl

theorem State.raiseIfErr_withScratch (code : ErrCode) :
    (s.withScratch x).raiseIfErr code = (s.raiseIfErr code).withScratch x := by
  rw [State.raiseIfErr_eq, State.raiseIfErr_eq]; rfl

theorem State.readWord_withScratch (v : Word) :
    (s.withScratch x).readWord v = (s.readWord v).withScratch x := by
  cases hb : s.busy <;> simp only [State.readWord, State.withScratch_busy, hb] <;> rfl

theorem State.storeBytes_withScratch (k : Nat) (bs : List Byte) :
    (s.withScratch x).storeBytes k bs = (s.storeBytes k bs).withScratch x := by
  cases hb : s.busy with
  | true =>
    rw [State.storeBytes_of_busy hb, State.storeBytes_of_busy (by simpa using hb),
      State.raiseIfErr_withScratch]
  | false => rw [State.storeBytes_of_idle hb, State.storeBytes_of_idle (by simpa using hb)]; rfl

theorem State.consider_withScratch (c : Instr) :
    (s.withScratch x).consider c = (s.consider c).withScratch x := by
  cases c with
  | init => rfl
  | block | final n =>
    simp only [State.consider, State.withScratch_err, State.withScratch_ctrl, State.raiseIfErr_withScratch]
    split
    · rfl
    · split <;> rfl

theorem State.writeCommand_withScratch (c : Option Instr) :
    (s.withScratch x).writeCommand c = (s.writeCommand c).withScratch x := by
  cases hb : s.busy with
  | true =>
    rw [State.writeCommand_of_busy hb, State.writeCommand_of_busy (by simpa using hb),
      State.raiseIfErr_withScratch]
  | false =>
    have hb' : (s.withScratch x).busy = false := by simpa using hb
    cases c with
    | none =>
      rw [State.writeCommand_of_illegal hb, State.writeCommand_of_illegal hb', State.raiseIfErr_withScratch]
    | some c =>
      rw [State.writeCommand_of_legal hb, State.writeCommand_of_legal hb', State.consider_withScratch]

theorem pollStatus_withScratch (rest : List HostOp) :
    pollStatus rest (s.withScratch x) = (pollStatus rest s).withScratch x := by
  cases hb : s.status.getLsbD 0 <;> simp only [pollStatus, State.withScratch_status, hb] <;> rfl

/-- INIT's completion carries the internal state along; the other two overwrite it with free values, so
that their results are equal. -/
theorem exec_withScratch (i : Instr) : AgreesUpToScratch (exec i s) (exec i (s.withScratch x)) := by
  cases hs : s.turn with
  | host =>
    rw [exec_host i s hs, exec_host i (s.withScratch x) hs, State.writeCommand_withScratch]
    exact .next _ x
  | core =>
    have hs' : (s.withScratch x).turn = .core := hs
    cases i with
    | init => rw [execInit_core hs, execInit_core hs']; exact .next (completeInit s) x
    | block => rw [execBlock_core hs, execBlock_core hs']; exact .refl _
    | final n => rw [execFinal_core n hs, execFinal_core n hs']; exact .refl _

theorem commandWrite_withScratch (v : BitVec 32) :
    AgreesUpToScratch (commandWrite v s) (commandWrite v (s.withScratch x)) := by
  unfold commandWrite; split
  · exact exec_withScratch s x _
  · rw [State.writeCommand_withScratch]; exact .next _ x

theorem hostRead_withScratch (off : BitVec 8) (n : Nat) :
    AgreesUpToScratch (hostRead off n s) (hostRead off n (s.withScratch x)) := by
  unfold hostRead; split
  · rfl
  · exact .next (s.logRead _) x
  · rw [State.readWord_withScratch]; exact .next _ x
  · rw [State.readWord_withScratch]; exact .next _ x

theorem hostWrite_withScratch (off : BitVec 8) (n : Nat) (v : Word) :
    AgreesUpToScratch (hostWrite off n v s) (hostWrite off n v (s.withScratch x)) := by
  unfold hostWrite; split
  · rfl
  · rw [State.storeBytes_withScratch]; exact .next _ x
  · rw [State.storeBytes_withScratch]; exact .next _ x
  · exact commandWrite_withScratch s x _

theorem hostStep_withScratch : AgreesUpToScratch (hostStep s) (hostStep (s.withScratch x)) := by
  simp only [hostStep, State.withScratch_host]; split
  · exact .next s x
  · next a rest _ =>
    cases a with
    | read off n => exact hostRead_withScratch { s with host := rest } x off n
    | write off n v => exact hostWrite_withScratch { s with host := rest } x off n v
  · rw [pollStatus_withScratch]; exact .next _ x

theorem coreStep_withScratch : AgreesUpToScratch (coreStep s) (coreStep (s.withScratch x)) := by
  simp only [coreStep, State.withScratch_busy, State.withScratch_pend]; split
  · exact exec_withScratch s x _
  · exact .next s x
  · exact .next s x

theorem takeTurn_withScratch (t : Turn) :
    AgreesUpToScratch (takeTurn t s) (takeTurn t (s.withScratch x)) := by
  match t with
  | .agent .host => exact hostStep_withScratch { s with turn := .host } x
  | .agent .core => exact coreStep_withScratch { s with turn := .core } x
  | .reset => exact .refl _

end withScratch

/-- Settles O58: who steps next is read off the order and BUSY, and no turn reads the internal state. -/
theorem internalStateIsNeverRead : Obligations.InternalStateIsNeverRead :=
  fun s x => takeTurn_withScratch { s with sched := s.sched.tail } x s.nextTurn

end Sys2Proof.Machine

/-! ### Host accesses of the window -/

namespace Sys2Proof.Machine

/-- `H[i]` is read at offset `0x90 + 8·i` (R25, R29). -/
theorem locateRead_digest (i : Fin 8) : locateRead (BitVec.ofNat 8 (0x90 + 8 * i.val)) 8 = .ok (.digest i) := by
  revert i; decide

/-- Where a legal read looks (R25). -/
theorem locateRead_ok {off : BitVec 8} {n : Nat} {i : Fin 8} :
    (locateRead off n = .ok .status → off.toNat = 0x84 ∧ n = 4)
    ∧ (locateRead off n = .ok (.digest i) → off.toNat = 0x90 + 8 * i.val ∧ n = 8)
    ∧ (locateRead off n = .ok .mlen → off.toNat = 0xD0 ∧ n = 8) := by
  unfold locateRead
  refine ⟨fun h => ?_, fun h => ?_, fun h => ?_⟩ <;> grind [Fin.val_ofNat]

/-- A read is listed in the register map exactly when it names a register (R25). -/
theorem readListed_iff (off : BitVec 8) (n : Nat) :
    ReadListed off n ↔ ∃ r, locateRead off n = .ok r := by
  constructor
  · rintro (⟨rfl, rfl⟩ | ⟨i, hoff, rfl⟩ | ⟨rfl, rfl⟩)
    · exact ⟨.status, rfl⟩
    · obtain rfl : off = BitVec.ofNat 8 (0x90 + 8 * i.val) := by rw [← hoff, BitVec.ofNat_toNat, BitVec.setWidth_eq]
      exact ⟨.digest i, locateRead_digest i⟩
    · exact ⟨.mlen, rfl⟩
  · rintro ⟨r, h⟩
    cases r with
    | status => exact .inl ((locateRead_ok (i := 0)).1 h |>.imp_left BitVec.eq_of_toNat_eq)
    | digest i => exact .inr (.inl ⟨i, locateRead_ok.2.1 h⟩)
    | mlen => exact .inr (.inr ((locateRead_ok (i := 0)).2.2 h |>.imp_left BitVec.eq_of_toNat_eq))

/-- A width-1 write inside `BUF` names its byte (R26). -/
theorem locateWrite_byte {off : BitVec 8} (h : off.toNat ≤ 0x7F) :
    locateWrite off 1 = .ok (.bufByte off.toNat) := by
  simp [locateWrite, show off.toNat < 0x80 by omega]

/-- An aligned width-8 write inside `BUF` names its eight bytes (R26). -/
theorem locateWrite_word {off : BitVec 8} (h : off.toNat ≤ 0x7F) (haligned : off.toNat % 8 = 0) :
    locateWrite off 8 = .ok (.bufWord off.toNat) := by
  simp [locateWrite, show off.toNat < 0x80 by omega, haligned]

/-- CMD is written at one offset and in one width (R27). -/
theorem locateWrite_cmd {off : BitVec 8} {n : Nat} (h : locateWrite off n = .ok .cmd) :
    off.toNat = 0x80 ∧ n = 4 := by
  unfold locateWrite at h; grind

/-- A write is listed in the register map exactly when it names a register (R25). -/
theorem writeListed_iff (off : BitVec 8) (n : Nat) :
    WriteListed off n ↔ ∃ r, locateWrite off n = .ok r := by
  constructor
  · rintro (⟨hoff, rfl⟩ | ⟨hoff, haligned, rfl⟩ | ⟨rfl, rfl⟩)
    · exact ⟨_, locateWrite_byte hoff⟩
    · exact ⟨_, locateWrite_word hoff haligned⟩
    · exact ⟨.cmd, rfl⟩
  · rintro ⟨r, h⟩
    cases r with
    | bufByte k =>
      obtain ⟨rfl, hk, rfl⟩ := locateWrite_buf.1 h
      exact .inl ⟨by omega, rfl⟩
    | bufWord k =>
      obtain ⟨rfl, hk, rfl, haligned⟩ := locateWrite_buf.2 h
      exact .inr (.inl ⟨by omega, haligned, rfl⟩)
    | cmd => exact .inr (.inr ((locateWrite_cmd h).imp_left BitVec.eq_of_toNat_eq))

theorem hostRead_of_listed {off : BitVec 8} {n : Nat} (h : ReadListed off n) (s : State) :
    ∃ t, hostRead off n s = .next t := by
  obtain ⟨r, hr⟩ := (readListed_iff off n).mp h
  cases r <;> simp [hostRead, hr]

theorem hostRead_of_not_listed {off : BitVec 8} {n : Nat} (h : ¬ ReadListed off n) (s : State) :
    ∃ r, hostRead off n s = .fault (.busRefused r) := by
  cases hr : locateRead off n with
  | ok r => exact absurd ((readListed_iff off n).mpr ⟨r, hr⟩) h
  | error r => exact ⟨r, by simp [hostRead, hr]⟩

theorem hostWrite_of_listed {off : BitVec 8} {n : Nat} (h : WriteListed off n) (v : Word) {s : State}
    (hs : s.turn = .host) : ∃ t, hostWrite off n v s = .next t := by
  obtain ⟨r, hr⟩ := (writeListed_iff off n).mp h
  cases r <;> simp [hostWrite, hr, commandWrite_host _ _ hs]

theorem hostWrite_of_not_listed {off : BitVec 8} {n : Nat} (h : ¬ WriteListed off n) (v : Word) (s : State) :
    ∃ r, hostWrite off n v s = .fault (.busRefused r) := by
  cases hr : locateWrite off n with
  | ok r => exact absurd ((writeListed_iff off n).mpr ⟨r, hr⟩) h
  | error r => exact ⟨r, by simp [hostWrite, hr]⟩

/-- Nothing above CMD is written (R25). -/
theorem hostWrite_above_cmd {off : BitVec 8} (h : 0x80 < off.toNat) (n : Nat) (v : Word) (s : State) :
    ∃ r, hostWrite off n v s = .fault (.busRefused r) := by
  refine hostWrite_of_not_listed ?_ v s
  rintro (⟨hoff, -⟩ | ⟨hoff, -, -⟩ | ⟨rfl, -⟩)
  · omega
  · omega
  · exact absurd h (by decide)

/-- Settles O19: whether an access is served is whether it names a register. -/
theorem registerMapIsExact : Obligations.RegisterMapIsExact := fun s _ _ v hs =>
  ⟨fun h => hostRead_of_listed h s, fun h => hostRead_of_not_listed h s,
    fun h => hostWrite_of_listed h v hs, fun h => hostWrite_of_not_listed h v s⟩

/-! #### Writes of `BUF` -/

/-- A width-1 write inside `BUF` stores its byte (R26). -/
theorem hostWrite_byte {off : BitVec 8} (h : off.toNat ≤ 0x7F) (v : Word) (s : State) :
    hostWrite off 1 v s = .next (s.storeBytes off.toNat [v.extractLsb' 0 8]) := by
  simp [hostWrite, locateWrite_byte h]

/-- An aligned width-8 write inside `BUF` stores the bytes of its word, the most significant first (R26). -/
theorem hostWrite_word {off : BitVec 8} (h : off.toNat ≤ 0x7F) (haligned : off.toNat % 8 = 0) (v : Word)
    (s : State) : hostWrite off 8 v s = .next (s.storeBytes off.toNat (beBytes v)) := by
  simp [hostWrite, locateWrite_word h haligned]

/-- Inside `BUF` the map lists width 1, and width 8 at multiples of 8 (R25). -/
theorem writeListed_of_buf {off : BitVec 8} {n : Nat} (hoff : off.toNat ≤ 0x7F) (h : WriteListed off n) :
    n = 1 ∨ (n = 8 ∧ off.toNat % 8 = 0) := by
  obtain ⟨-, rfl⟩ | ⟨-, haligned, rfl⟩ | ⟨rfl, -⟩ := h
  · exact .inl rfl
  · exact .inr ⟨rfl, haligned⟩
  · exact absurd hoff (by decide)

theorem raiseIfErr_eq_withError (s : State) (code : ErrCode) : s.raiseIfErr code = withError s code :=
  s.raiseIfErr_eq code

theorem beBytes_getElem? (v : Word) {k : Nat} (h : k < 8) : (beBytes v)[k]? = some (beByte v k) := by
  simp [beBytes, h]

/-- The first 16 words of a schedule are the framed ones (R69, R72). -/
theorem schedule_getD_of_lt (b : Block) {i : Nat} (h : i < 16) :
    (schedule b).getD i 0 = frameWord b ⟨i, h⟩ := by
  rw [schedule_eq, extend_getD_of_lt _ _ _ (by simpa using h)]
  simp [h]

/-- Eight bytes that `BUF` holds of a word, most significant first, are framed back to that word (R32, R69). -/
theorem frameWord_bufBlock (m : List Host.Cell) (d : Nat) (v : Word) (i : Fin 16)
    (h : ∀ k, k < 8 → Memory.read? m (8 * i.val + k) = some (beByte v k)) :
    frameWord (bufBlock m d) i = v := by
  calc frameWord (bufBlock m d) i
    _ = beWord fun k => beByte v k.val := by
      unfold frameWord
      congr 1
      funext k
      rw [bufBlock_getElem, h k.val k.isLt, Option.getD_some]
    _ = v := beWord_beByte v

/-- What the bytes of a word, written at offset `k`, leave in `BUF` (R26). -/
theorem Memory.read?_writeBytes_beBytes {m : List Host.Cell} (hm : Memory.wf m) (k : Nat) (v : Word) (a : Nat) :
    Memory.read? (Memory.writeBytes m k (beBytes v)) a =
      if k ≤ a ∧ a < k + 8 then some (beByte v (a - k)) else Memory.read? m a := by
  rw [Memory.read?_writeBytes _ _ _ _ hm.1, beBytes_length]
  split
  · exact beBytes_getElem? v (by omega)
  · rfl

/-- Settles O23: an idle core stores the bytes, a busy one records BUF_BUSY, and what the map does not list
is refused. -/
theorem bufferWriteStoresBytes : Obligations.BufferWriteStoresBytes := by
  intro s off v hwf hoff
  refine ⟨fun idle => ?_, fun idle haligned => ?_, fun busy => ⟨?_, fun haligned => ?_⟩,
    fun n h1 h8 => ?_, fun hmisaligned => ?_⟩
  · rw [hostWrite_byte hoff, State.storeBytes_of_idle idle]
    exact ⟨_, rfl, rfl, fun a => Memory.read?_write _ _ _ _ hwf.1⟩
  · rw [hostWrite_word hoff haligned, State.storeBytes_of_idle idle]
    refine ⟨_, rfl, rfl, Memory.read?_writeBytes_beBytes hwf _ v, fun d => ?_⟩
    rw [schedule_getD_of_lt _ (by omega)]
    refine frameWord_bufBlock _ d v _ fun k hk => ?_
    rw [Memory.read?_writeBytes_beBytes hwf, if_pos (by dsimp only; omega)]
    congr 2
    dsimp only
    omega
  · rw [hostWrite_byte hoff, State.storeBytes_of_busy busy, raiseIfErr_eq_withError]
  · rw [hostWrite_word hoff haligned, State.storeBytes_of_busy busy, raiseIfErr_eq_withError]
  · exact hostWrite_of_not_listed (fun h => by have := writeListed_of_buf hoff h; omega) v s
  · exact hostWrite_of_not_listed (fun h => by have := writeListed_of_buf hoff h; omega) v s

/-! #### Sequences of `BUF` writes -/

theorem runAccesses_append {as : List Access} {s t : State} (h : runAccesses as s = .next t)
    (bs : List Access) : runAccesses (as ++ bs) s = runAccesses bs t := by
  induction as generalizing s with
  | nil => cases h; rfl
  | cons a as ih =>
    simp only [List.cons_append, runAccesses] at h ⊢
    cases ha : hostAccess a s with
    | next u => exact ih (by simpa [ha] using h)
    | fault r | refused r => simp [ha] at h

/-- A width-1 write inside `BUF`, followed by other accesses. -/
theorem runAccesses_byte_cons {off : BitVec 8} (h : off.toNat ≤ 0x7F) (v : Word) (as : List Access) (s : State) :
    runAccesses (.write off 1 v :: as) s
      = runAccesses as (s.storeBytes off.toNat [v.extractLsb' 0 8]) := by
  simp [runAccesses, hostAccess, hostWrite_byte h]

/-- One width-1 write a byte, in rising offset order, stores the run of bytes, whether the core is busy or
not. The run is not empty: an empty one would raise no error. -/
theorem runAccesses_bytes (s : State) (off : BitVec 8) (f : Nat → Byte) (n : Nat) (h : off.toNat + n < 128) :
    runAccesses ((List.range (n + 1)).map fun k => .write (off + BitVec.ofNat 8 k) 1 ((f k).setWidth 64)) s
      = .next (s.storeBytes off.toNat ((List.range (n + 1)).map f)) := by
  have at_offset (k : Nat) (hk : k ≤ n) : (off + BitVec.ofNat 8 k).toNat = off.toNat + k := by
    rw [BitVec.toNat_add, BitVec.toNat_ofNat]; omega
  have low_byte (b : Byte) : (b.setWidth 64).extractLsb' 0 8 = b := by
    ext i hi; simp [BitVec.getLsbD_eq_getElem hi, show i < 64 by omega]
  induction n with
  | zero =>
    rw [List.range_one, List.map_singleton, List.map_singleton,
      runAccesses_byte_cons (by rw [at_offset 0 le_rfl]; omega), at_offset 0 le_rfl, low_byte]
    rfl
  | succ n ih =>
    rw [List.range_succ, List.map_append, List.map_append,
      runAccesses_append (ih (by omega) fun k hk => at_offset k (by omega)), List.map_singleton,
      List.map_singleton, runAccesses_byte_cons (by rw [at_offset _ le_rfl]; omega), at_offset _ le_rfl, low_byte,
      ← State.storeBytes_append, List.length_map, List.length_range]
    rfl

/-- Settles O24: both sides store the same run of eight bytes. -/
theorem wideWriteIsEightByteWrites : Obligations.WideWriteIsEightByteWrites := by
  intro s off v hoff haligned
  rw [runAccesses_bytes s off (fun k => v.extractLsb' (56 - 8 * k) 8) 7 (by omega)]
  simp only [runAccesses, hostAccess, hostWrite_word hoff haligned]
  rfl

/-- Writes of two different bytes commute. -/
theorem Memory.write_comm {m : List Host.Cell} (hm : Memory.wf m) {a b : Nat} (hab : a ≠ b) (x y : Byte) :
    Memory.write (Memory.write m a x) b y = Memory.write (Memory.write m b y) a x := by
  have ha := Memory.pairwise_write a x hm.1
  have hb := Memory.pairwise_write b y hm.1
  refine Memory.ext (Memory.pairwise_write b y ha) (Memory.pairwise_write a x hb) fun c => ?_
  rw [Memory.read?_write _ _ _ _ ha, Memory.read?_write _ _ _ _ hm.1, Memory.read?_write _ _ _ _ hb,
    Memory.read?_write _ _ _ _ hm.1]
  by_cases hcb : c = b
  · simp [hcb, hab.symm]
  · simp [hcb]

/-- Of two writes of one byte the last counts. -/
theorem Memory.write_write {m : List Host.Cell} (hm : Memory.wf m) (a : Nat) (x y : Byte) :
    Memory.write (Memory.write m a x) a y = Memory.write m a y := by
  have ha := Memory.pairwise_write a x hm.1
  refine Memory.ext (Memory.pairwise_write a y ha) (Memory.pairwise_write a y hm.1) fun c => ?_
  rw [Memory.read?_write _ _ _ _ ha, Memory.read?_write _ _ _ _ hm.1, Memory.read?_write _ _ _ _ hm.1]
  split <;> rfl

/-- One byte stored by an idle core. -/
theorem State.storeBytes_singleton {s : State} (idle : s.busy = false) (k : Nat) (b : Byte) :
    s.storeBytes k [b] = { s with buf := Memory.write s.buf k b } := State.storeBytes_of_idle idle k [b]

/-- One byte stored and another after it, by an idle core. -/
theorem State.storeBytes_pair {s : State} (idle : s.busy = false) (j k : Nat) (b c : Byte) :
    (s.storeBytes j [b]).storeBytes k [c] = { s with buf := Memory.write (Memory.write s.buf j b) k c } := by
  rw [State.storeBytes_singleton (by simpa using idle), State.storeBytes_singleton idle]

/-- Settles O25: the laws of single-byte writes; a busy core absorbs the second error. -/
theorem bufferWritesCommuteAndLastWins : Obligations.BufferWritesCommuteAndLastWins := by
  intro s a b v w hwf ha hb
  simp only [runAccesses_byte_cons ha, runAccesses_byte_cons hb]
  have last_wins (idle : s.busy = false) (x y : Byte) :
      (s.storeBytes a.toNat [x]).storeBytes a.toNat [y] = s.storeBytes a.toNat [y] := by
    rw [State.storeBytes_pair idle, State.storeBytes_singleton idle, Memory.write_write hwf]
  refine ⟨fun idle hab => ?_, fun idle => ?_, ?_, ⟨_, rfl⟩⟩
  · rw [State.storeBytes_pair idle, State.storeBytes_pair idle,
      Memory.write_comm hwf (fun h => hab (BitVec.eq_of_toNat_eq h))]
  · rw [last_wins idle]
  · cases hbusy : s.busy with
    | false => rw [last_wins hbusy]
    | true =>
      rw [State.storeBytes_of_busy hbusy, State.storeBytes_of_busy (by simpa using hbusy),
        State.raiseIfErr_raiseIfErr]

/-! #### Host steps while a command is in flight -/

/-- A host step of a busy core leaves STATE, PEND and BUSY as they are. -/
theorem hostStep_keeps_control {s t : State} (hs : s.turn = .host) (h : hostStep s = .next t)
    (busy : s.busy = true) : t.ctrl = s.ctrl ∧ t.pend = s.pend ∧ t.busy = s.busy := by
  obtain rfl | ⟨_, rfl⟩ | ⟨_, _, rfl, rfl | ⟨_, rfl⟩ | ⟨_, _, _, _, _, _, _, _, rfl⟩ | ⟨_, rfl⟩⟩ :=
    hostStep_cases hs h
  case inr.inr.inr.inr.inr => simp [State.writeCommand_of_busy, busy]
  all_goals simp

/-- Settles O53: a host step writes `H` and MLEN never, `BUF`, STATE, PEND and BUSY only while the core is idle. -/
theorem hostCannotReachTheCommandInFlight : Obligations.HostCannotReachTheCommandInFlight := by
  intro s t busy hturn h
  obtain ⟨-, h⟩ | ⟨hcore, -⟩ | ⟨hreset, -⟩ := step_cases h
  · obtain ⟨hh, hmlen⟩ := hostStep_h_mlen rfl h
    obtain ⟨hctrl, hpend, hbusy⟩ := hostStep_keeps_control rfl h busy
    have hbuf : t.buf = s.buf := by
      by_contra hne
      have idle := (hostStep_changes_buf rfl h hne).1
      simp [busy] at idle
    exact ⟨hbuf, hh, hmlen, hctrl, hpend, hbusy.trans busy⟩
  · simp [hturn] at hcore
  · simp [hturn] at hreset

/-! #### The window and the registers read -/

/-- Settles O20: the window is the 256 addresses from `CORE_BASE` on, whatever its value. -/
theorem platformAddressesOfTheWindow : Obligations.PlatformAddressesOfTheWindow := by
  have in_window (off : BitVec 8) : windowOffset (platformAddress off) = some off := by
    have := off.isLt
    simp [windowOffset, platformAddress, show off.toNat < 256 by omega]
  have only_window (addr : Nat) (off : BitVec 8) (h : windowOffset addr = some off) :
      addr = platformAddress off := by
    unfold windowOffset at h
    split at h
    · obtain rfl := Option.some.inj h
      rw [platformAddress, BitVec.toNat_ofNat]
      omega
    · cases h
  refine ⟨fun off => ⟨rfl, in_window off⟩, only_window, fun addr hout => ?_⟩
  cases hw : windowOffset addr with
  | none => rfl
  | some off => exact absurd (only_window addr off hw) (hout off)

/-- Settles O21: a STATUS read logs the status word, and STATUS stands above CMD. -/
theorem statusReadIsExact : Obligations.StatusReadIsExact := fun s =>
  ⟨rfl, fun n v => hostWrite_above_cmd (by decide) n v s⟩

theorem State.readWord_of_idle {s : State} (h : s.busy = false) (v : Word) :
    s.readWord v = { s with reads := s.reads ++ [.w64 v] } := by
  simp [State.readWord, h, State.logRead]

/-- While `BUSY = 1` a read logs some value, and only the draw counter moves besides. -/
theorem State.readWord_of_busy {s : State} (h : s.busy = true) (v : Word) :
    ∃ x, s.readWord v = { s with reads := s.reads ++ [.w64 x], fresh := (s.readWord v).fresh } := by
  refine ⟨Config.freeWord s.fresh 0, ?_⟩
  simp [State.readWord, h]

theorem hostRead_mlen (s : State) : hostRead 0xD0 8 s = .next (s.readWord s.mlen) := rfl

theorem hostRead_digest (i : Fin 8) (s : State) :
    hostRead (BitVec.ofNat 8 (0x90 + 8 * i.val)) 8 s = .next (s.readWord s.h[i]) := by
  simp [hostRead, locateRead_digest]

/-- Settles O22: by BUSY; the registers stand above CMD. -/
theorem digestAndLengthReads : Obligations.DigestAndLengthReads := by
  intro s i
  have digest_above_cmd : 0x80 < (BitVec.ofNat 8 (0x90 + 8 * i.val)).toNat := by
    rw [BitVec.toNat_ofNat]; omega
  rw [hostRead_digest, hostRead_mlen]
  refine ⟨fun idle => ?_, fun busy => ?_, fun n v =>
    ⟨hostWrite_above_cmd digest_above_cmd n v s, hostWrite_above_cmd (by decide) n v s⟩⟩
  · rw [State.readWord_of_idle idle, State.readWord_of_idle idle]
    exact ⟨rfl, rfl⟩
  · obtain ⟨x, hx⟩ := State.readWord_of_busy busy s.h[i]
    obtain ⟨y, hy⟩ := State.readWord_of_busy busy s.mlen
    exact ⟨⟨_, x, rfl, hx⟩, ⟨_, y, rfl, hy⟩⟩

end Sys2Proof.Machine

/-! ### Encodings -/

namespace Sys2Proof.Machine

/-! #### The command word -/

/-- The four fields of R38 make up the word: two words that agree in all of them are equal. -/
theorem word_ext {v w : BitVec 32} (op : fieldOp v = fieldOp w)
    (low : v.extractLsb' 4 4 = w.extractLsb' 4 4) (count : fieldN v = fieldN w)
    (high : v.extractLsb' 15 17 = w.extractLsb' 15 17) : v = w := by
  have bit_of_field {start len i : Nat} (h : v.extractLsb' start len = w.extractLsb' start len)
      (hi : start ≤ i ∧ i < start + len) : v.getLsbD i = w.getLsbD i := by
    have := congrArg (·.getLsbD (i - start)) h
    simpa [show i - start < len by omega, show start + (i - start) = i by omega] using this
  refine BitVec.eq_of_getLsbD_eq fun i hi => ?_
  rcases (by omega : i < 4 ∨ (4 ≤ i ∧ i < 8) ∨ (8 ≤ i ∧ i < 15) ∨ 15 ≤ i) with h | h | h | h
  · exact bit_of_field op (by omega)
  · exact bit_of_field low (by omega)
  · exact bit_of_field count (by omega)
  · exact bit_of_field high (by omega)

/-- The format of every command's word (R38 to R40). -/
theorem commandWord (i : Instr) : Laws.CommandWord.Statement i := by
  cases i with
  | init => exact Laws.CommandWord.init
  | block => exact Laws.CommandWord.block
  | final n => exact Laws.CommandWord.final n

theorem lowReservedClear_iff (v : BitVec 32) : lowReservedClear v = true ↔ v.extractLsb' 4 4 = 0 := by
  simp [lowReservedClear]

theorem highReservedClear_iff (v : BitVec 32) : highReservedClear v = true ↔ v.extractLsb' 15 17 = 0 := by
  simp [highReservedClear]

/-- A word is a command's word exactly when its fields are that command's (R38). -/
theorem eq_encode_iff (v : BitVec 32) (i : Instr) :
    v = encode i ↔ v.extractLsb' 4 4 = 0 ∧ v.extractLsb' 15 17 = 0
      ∧ fieldOp v = Laws.CommandWord.opOf i ∧ fieldN v = Laws.CommandWord.countOf i := by
  obtain ⟨-, -, hop, hcount, hlow, hhigh⟩ := commandWord i
  rw [lowReservedClear_iff] at hlow
  rw [highReservedClear_iff] at hhigh
  constructor
  · rintro rfl
    exact ⟨hlow, hhigh, hop, hcount⟩
  · rintro ⟨low, high, op, count⟩
    exact word_ext (op.trans hop.symm) (low.trans hlow.symm) (count.trans hcount.symm) (high.trans hhigh.symm)

/-- The mask of R42 keeps every field but `N`. -/
theorem masked_eq_final_iff (v : BitVec 32) :
    v &&& 0xFFFF80FF = 0x00000003 ↔ v = encode (.final (fieldN v)) := by
  have hlow : (v &&& 0xFFFF80FF).extractLsb' 4 4 = v.extractLsb' 4 4 := by
    rw [BitVec.extractLsb'_and]; exact BitVec.and_allOnes
  have hhigh : (v &&& 0xFFFF80FF).extractLsb' 15 17 = v.extractLsb' 15 17 := by
    rw [BitVec.extractLsb'_and]; exact BitVec.and_allOnes
  have hop : fieldOp (v &&& 0xFFFF80FF) = fieldOp v := by
    rw [fieldOp, BitVec.extractLsb'_and]; exact BitVec.and_allOnes
  have hcount : fieldN (v &&& 0xFFFF80FF) = 0 := by
    rw [fieldN, BitVec.extractLsb'_and]; exact BitVec.and_zero
  rw [show (0x00000003 : BitVec 32) = encode (.final 0) from rfl, eq_encode_iff, eq_encode_iff, hlow, hhigh, hop,
    hcount]
  simp [Laws.CommandWord.opOf, Laws.CommandWord.countOf]

/-- Every command's word decodes to it (R42). -/
theorem decode_encode (i : Instr) : decode (encode i) = .ok i := by
  cases i with
  | init => rfl
  | block => rfl
  | final n =>
    obtain ⟨-, -, hop, hcount, -, -⟩ := commandWord (.final n)
    have not_init : encode (.final n) ≠ 0x00000001 := fun h => by rw [h] at hop; cases hop
    have not_block : encode (.final n) ≠ 0x00000002 := fun h => by rw [h] at hop; cases hop
    rw [decode, if_neg not_init, if_neg not_block, if_pos ((masked_eq_final_iff _).mpr (by rw [hcount]; rfl))]
    exact congrArg (Except.ok ∘ Instr.final) hcount

/-- A word that decodes is the word of the command it decodes to (R42). -/
theorem eq_encode_of_decode {v : BitVec 32} {i : Instr} (h : decode v = .ok i) : v = encode i := by
  unfold decode at h
  split at h
  · cases h; assumption
  · split at h
    · cases h; assumption
    · split at h
      · cases h; exact (masked_eq_final_iff v).mp ‹_›
      · cases h

theorem decode_eq_ok_iff (v : BitVec 32) (i : Instr) : decode v = .ok i ↔ v = encode i :=
  ⟨eq_encode_of_decode, fun h => h ▸ decode_encode i⟩

/-- Settles O16: by the two directions of `decode_eq_ok_iff`. -/
theorem decodeAndEncodeAgree : Obligations.DecodeAndEncodeAgree :=
  ⟨decode_eq_ok_iff, fun i _ => decode_encode i⟩

/-! #### Legality -/

/-- The three forms that R42 tests for are the words of the commands. -/
theorem forms_iff_command (v : BitVec 32) :
    (v = 0x00000001 ∨ v = 0x00000002 ∨ v &&& 0xFFFF80FF = 0x00000003) ↔ ∃ i, v = encode i := by
  rw [masked_eq_final_iff]
  constructor
  · rintro (h | h | h)
    · exact ⟨.init, h⟩
    · exact ⟨.block, h⟩
    · exact ⟨_, h⟩
  · rintro ⟨i, h⟩
    cases i with
    | init => exact .inl h
    | block => exact .inr (.inl h)
    | final n =>
      obtain ⟨-, -, -, hcount⟩ := (eq_encode_iff v _).mp h
      exact .inr (.inr (h.trans (congrArg (encode ∘ Instr.final) hcount.symm)))

/-- The checks of R41, field by field, pass exactly the words of the commands. -/
theorem legalWord_iff (v : BitVec 32) : legalWord v = true ↔ ∃ i, v = encode i := by
  constructor
  · intro h
    simp only [legalWord, Bool.and_eq_true, Bool.or_eq_true, beq_iff_eq, lowReservedClear_iff,
      highReservedClear_iff] at h
    obtain ⟨⟨low, high⟩, (⟨op, count⟩ | ⟨op, count⟩) | op⟩ := h
    · exact ⟨.init, (eq_encode_iff v _).mpr ⟨low, high, op, count⟩⟩
    · exact ⟨.block, (eq_encode_iff v _).mpr ⟨low, high, op, count⟩⟩
    · exact ⟨.final (fieldN v), (eq_encode_iff v _).mpr ⟨low, high, op, rfl⟩⟩
  · rintro ⟨i, rfl⟩
    obtain ⟨-, legal, -⟩ := commandWord i
    exact legal

theorem decode_eq_illegal_iff (v : BitVec 32) : decode v = .error .illegal ↔ legalWord v = false := by
  rw [← Bool.not_eq_true, legalWord_iff]
  simp only [← decode_eq_ok_iff]
  cases h : decode v with
  | ok i => simp
  | error e => cases e; simp

/-- A CMD write of a word that is no command's, on the host's turn (R41, R101). -/
theorem commandWrite_of_illegal {v : BitVec 32} (h : decode v = .error .illegal) {s : State}
    (hs : s.turn = .host) :
    commandWrite v s = .next (withError s (if s.busy then .cmdBusy else .illegalCmd)) := by
  rw [commandWrite_host v s hs, h, ← raiseIfErr_eq_withError]
  cases hb : s.busy with
  | true => rw [State.writeCommand_of_busy hb]; rfl
  | false => exact congrArg _ (State.writeCommand_of_illegal hb)

/-- Settles O17: the three forms, the checks and the decoder speak of the same words, those of the commands. -/
theorem legalWordsAreTheCommands : Obligations.LegalWordsAreTheCommands := fun v =>
  ⟨(decode_eq_ok_iff v .init).mpr, (decode_eq_ok_iff v .block).mpr,
    fun h => (decode_eq_ok_iff v _).mpr ((masked_eq_final_iff v).mp h),
    (forms_iff_command v).trans (legalWord_iff v).symm, decode_eq_illegal_iff v,
    fun h _ hs => commandWrite_of_illegal ((decode_eq_illegal_iff v).mpr h) hs⟩

/-! #### DVALID -/

theorem State.dvalid_iff (s : State) :
    s.dvalid = true ↔ s.ctrl = .done ∧ s.busy = false ∧ s.err = false := by
  simp [State.dvalid, and_assoc]

@[simp] theorem State.raiseIfErr_dvalid (s : State) (code : ErrCode) : (s.raiseIfErr code).dvalid = false := by
  simp [State.dvalid]

@[simp] theorem State.accept_dvalid (s : State) (c : Instr) : (s.accept c).dvalid = false := by
  simp [State.dvalid]

/-- A state that agrees in STATE, BUSY and ERR has the same DVALID (R43). -/
theorem State.dvalid_congr {s t : State} (hctrl : t.ctrl = s.ctrl) (hbusy : t.busy = s.busy) (herr : t.err = s.err) :
    t.dvalid = s.dvalid := by
  simp [State.dvalid, hctrl, hbusy, herr]

/-- A `BUF` write does not make the digest valid. -/
theorem State.dvalid_of_storeBytes {s : State} {k : Nat} {bs : List Byte} (h : (s.storeBytes k bs).dvalid = true) :
    s.dvalid = true := by
  cases hb : s.busy with
  | true => simp [State.storeBytes_of_busy hb] at h
  | false => rw [State.storeBytes_of_idle hb] at h; exact h

/-- A CMD write does not make the digest valid. -/
theorem State.dvalid_of_writeCommand {s : State} {c : Option Instr} (h : (s.writeCommand c).dvalid = true) :
    s.dvalid = true := by
  cases hb : s.busy with
  | true => simp [State.writeCommand_of_busy hb] at h
  | false =>
    cases c with
    | none => simp [State.writeCommand_of_illegal hb] at h
    | some c =>
      rw [State.writeCommand_of_legal hb] at h
      obtain ⟨he, -⟩ | ⟨he, -⟩ | ⟨he, -⟩ := State.admit_cases s c <;> rw [he] at h
      · simp at h
      · exact h
      · simp at h

/-- No host step makes the digest valid (R43). -/
theorem dvalid_of_hostStep {s t : State} (hs : s.turn = .host) (h : hostStep s = .next t) (ht : t.dvalid = true) :
    s.dvalid = true := by
  obtain rfl | ⟨rest, rfl⟩ | ⟨_, rest, rfl, rfl | ⟨v, rfl⟩ | ⟨_, _, _, k, bs, _, _, _, rfl⟩ | ⟨c, rfl⟩⟩ :=
    hostStep_cases hs h
  · exact ht
  · rwa [State.dvalid_congr (pollStatus_ctrl rest s) (pollStatus_busy rest s) (pollStatus_err rest s)] at ht
  · exact ht
  · rwa [State.dvalid_congr (State.readWord_ctrl _ v) (State.readWord_busy _ v) (State.readWord_err _ v)] at ht
  · exact State.dvalid_of_storeBytes (s := { s with host := rest }) ht
  · exact State.dvalid_of_writeCommand (s := { s with host := rest }) ht

/-- The completion after which the digest is valid is a FINAL's, without an error: INIT ends in STREAMING, and a
BLOCK is in flight there only (R83). -/
theorem final_of_dvalid_exec {s t : State} (hi : Inv s) (hs : s.turn = .core) {i : Instr} (hp : s.pend = some i)
    (h : exec i s = .next t) (ht : t.dvalid = true) : s.err = false ∧ ∃ n, i = .final n := by
  obtain ⟨hctrl, -, herr⟩ := (State.dvalid_iff t).mp ht
  obtain ⟨-, rfl⟩ | ⟨rfl, -, rfl⟩ | ⟨n, rfl, -, rfl⟩ := exec_core_cases hs h
  · simp at hctrl
  · simp [hi.block_streaming hp] at hctrl
  · exact ⟨herr, n, rfl⟩

/-- Settles O56: no host step and no reset makes the digest valid, and of the completions only a FINAL's does. -/
theorem digestBecomesValidOnlyByFinal : Obligations.DigestBecomesValidOnlyByFinal := by
  intro s t hi h hs ht
  have before_ne : s.dvalid ≠ true := by simp [hs]
  obtain ⟨-, h⟩ | ⟨hturn, h⟩ | ⟨-, rfl⟩ := step_cases h
  · exact absurd (dvalid_of_hostStep rfl h ht) before_ne
  · obtain ⟨-, rfl⟩ | ⟨hb, i, hp, hx⟩ := coreStep_cases h
    · exact absurd ht before_ne
    · have turn_taken : Inv { s with sched := s.sched.tail, turn := .core } :=
        hi.of_same_fields ⟨rfl, rfl, rfl, rfl, rfl, rfl, rfl⟩
      obtain ⟨herr, n, rfl⟩ := final_of_dvalid_exec turn_taken rfl hp hx ht
      exact ⟨hturn, hb, herr, n, hp⟩
  · simp [State.dvalid] at ht

/-! #### The status word -/

/-- The fields of the status word, from bit 0 up (R43). -/
theorem State.status_fields (s : State) :
    s.status.extractLsb' 0 1 = BitVec.ofBool s.busy
    ∧ s.status.extractLsb' 1 1 = BitVec.ofBool s.dvalid
    ∧ s.status.extractLsb' 2 1 = BitVec.ofBool s.err
    ∧ s.status.extractLsb' 3 1 = 0#1
    ∧ s.status.extractLsb' 4 3 = s.errcode.code
    ∧ s.status.extractLsb' 7 1 = 0#1
    ∧ s.status.extractLsb' 8 2 = s.ctrl.code
    ∧ s.status.extractLsb' 10 22 = 0#22 := by
  refine ⟨?busy, ?dvalid, ?err, ?bit3, ?errcode, ?bit7, ?ctrl, ?high⟩
  all_goals
    change BitVec.extractLsb' (n := 22 + 2 + 1 + 3 + 1 + 1 + 1 + 1) _ _ s.status = _
    rw [State.status]
    repeat rw [BitVec.extractLsb'_append_eq_of_le (by decide)]
  case high => exact BitVec.extractLsb'_eq_self
  all_goals exact BitVec.extractLsb'_append_eq_right

/-- Settles O18: field by field, from `State.status_fields` and the two code tables. -/
theorem statusWordFields : Obligations.StatusWordFields := by
  intro s
  obtain ⟨busy, dvalid, err, bit3, code, bit7, ctrl, high⟩ := s.status_fields
  simp only [BitVec.getLsbD_eq_extractLsb', busy, dvalid, err, bit3, code, bit7, ctrl, high]
  refine ⟨?_, ?_, ?_, rfl, ?_, rfl, ?_, rfl, ?_, ?_⟩
  · cases s.busy <;> rfl
  · unfold State.dvalid; cases (s.ctrl == .done) && !s.busy && !s.err <;> rfl
  · cases s.err <;> rfl
  · cases s.errcode <;> rfl
  · cases s.ctrl <;> rfl
  · cases s.errcode <;> decide
  · cases s.ctrl <;> decide

/-! #### Pseudo-instructions -/

/-- A run of byte stores, one line for each value: the `k`-th at the `k`-th offset (R48). -/
theorem storeEach_eq_map (off : Nat) (vs : List Nat) (d : Nat) :
    storeEach off vs = (List.range vs.length).map fun k => hostStore (off + k) 1 (vs.getD k d) := by
  induction vs generalizing off with
  | nil => rfl
  | cons v vs ih =>
    rw [storeEach, ih, List.length_cons, List.range_succ_eq_map, List.map_cons, List.map_map]
    simp only [Function.comp_def, Nat.succ_eq_add_one, List.getD_cons_succ, Nat.add_right_comm, Nat.add_assoc]
    rfl

/-- The line of `final n` spells FINAL's word (R40, R48). -/
theorem final_line_word (n : BitVec 7) :
    (BitVec.ofNat 64 (0x00000003 + n.toNat * 256)).extractLsb' 0 32 = encode (.final n) := by
  have word : (encode (.final n)).toNat = n.toNat * 256 + 3 := by
    have count : (0#17 ++ n).toNat = n.toNat := by
      rw [BitVec.toNat_append]; simp
    exact (toNat_append_byte (0#17 ++ n) 0x03#8).trans (by rw [count]; rfl)
  refine BitVec.eq_of_toNat_eq ?_
  have := n.isLt
  rw [BitVec.extractLsb'_toNat, BitVec.toNat_ofNat, Nat.shiftRight_zero, word]
  omega

/-- Settles O26: the three command lines by their words, `st.text` and `st.fill` by `storeEach_eq_map`. -/
theorem pseudoInstructionsExpand : Obligations.PseudoInstructionsExpand := by
  refine ⟨⟨_, rfl, rfl⟩, ⟨_, rfl, rfl⟩, fun n => ⟨_, rfl, (decode_eq_ok_iff _ _).mpr (final_line_word n)⟩,
    rfl, fun i => rfl, rfl, rfl, fun off text => ?_, fun off m v => ?_⟩
  · rw [AsmLine.expand, storeEach_eq_map _ _ 'a'.toNat, List.length_map]
    simp only [List.getD_map, hostStore]
  · rw [AsmLine.expand, storeEach_eq_map _ _ v, List.length_replicate]
    simp [hostStore]

end Sys2Proof.Machine

/-! ### The round-function primitives -/

namespace Sys2Proof.Machine

/-! #### Rotations and shifts -/

/-- Bit `i` of a right rotation is bit `(i + n) mod 64` (R50): the two shifts hold the bits on either side of
the turn. -/
theorem getLsbD_rotr (x : Word) {n i : Nat} (hn : n ≤ 64) (hi : i < 64) :
    (rotr x n).getLsbD i = x.getLsbD ((i + n) % 64) := by
  rw [rotr, BitVec.getLsbD_or, BitVec.getLsbD_ushiftRight, BitVec.getLsbD_shiftLeft]
  by_cases h : i < 64 - n
  · have stays : (i + n) % 64 = n + i := by omega
    simp [h, stays]
  · have wraps : (i + n) % 64 = i - (64 - n) := by omega
    simp [h, hi, wraps, BitVec.getLsbD_of_ge x (n + i) (by omega)]

/-- Bit `i` of a logical shift right is bit `i + n`, and 0 where there is none (R51). -/
theorem getLsbD_shr (x : Word) (n i : Nat) : (shr x n).getLsbD i = x.getLsbD (i + n) := by
  rw [shr, BitVec.getLsbD_ushiftRight, Nat.add_comm]

/-- A right rotation fixes 0. -/
theorem rotr_zero (n : Nat) : rotr 0 n = 0 := by simp [rotr]

/-- A right rotation fixes all ones (R50). -/
theorem rotr_allOnes {n : Nat} (hn : n ≤ 64) : rotr (BitVec.allOnes 64) n = BitVec.allOnes 64 := by
  refine BitVec.eq_of_getLsbD_eq fun i hi => ?_
  rw [getLsbD_rotr _ hn hi, BitVec.getLsbD_allOnes, BitVec.getLsbD_allOnes]
  simp [hi, Nat.mod_lt]

/-- The positions that a right rotation reads are those of the word, each once: their list, rotated. -/
theorem rotated_positions (n : Nat) : (List.range 64).map (fun i => (i + n) % 64) = (List.range 64).rotate n := by
  refine List.ext_getElem (by simp) fun i _ _ => ?_
  simp [List.getElem_rotate]

/-- A right rotation keeps the number of 1 bits (R50): it permutes the positions. -/
theorem countP_rotr (x : Word) {n : Nat} (hn : n ≤ 64) :
    (List.range 64).countP (fun i => (rotr x n).getLsbD i) = (List.range 64).countP (fun i => x.getLsbD i) :=
  calc (List.range 64).countP (fun i => (rotr x n).getLsbD i)
    _ = (List.range 64).countP (fun i => x.getLsbD ((i + n) % 64)) :=
        List.countP_congr fun i hi => by rw [getLsbD_rotr x hn (List.mem_range.mp hi)]
    _ = ((List.range 64).map fun i => (i + n) % 64).countP (fun i => x.getLsbD i) := List.countP_map.symm
    _ = ((List.range 64).rotate n).countP (fun i => x.getLsbD i) := by rw [rotated_positions]
    _ = (List.range 64).countP (fun i => x.getLsbD i) := (List.rotate_perm _ n).countP_eq _

/-- Settles O1: bit by bit from `getLsbD_rotr`, the count from `countP_rotr`. -/
theorem rotateRightPermutesBits : Obligations.RotateRightPermutesBits :=
  ⟨fun x n _ hn =>
    have hn : n ≤ 64 := Nat.le_succ_of_le hn
    ⟨rfl, fun _ hi => getLsbD_rotr x hn hi, rotr_zero n, rotr_allOnes hn, countP_rotr x hn⟩,
   by decide, by decide⟩

/-- A logical shift right divides by a power of two, rounding down (R51). -/
theorem toNat_shr (x : Word) (n : Nat) : (shr x n).toNat = x.toNat / 2 ^ n := by
  rw [shr, BitVec.toNat_ushiftRight, Nat.shiftRight_eq_div_pow]

/-- Settles O2: `toNat_shr` and `getLsbD_shr`. -/
theorem logicalShiftRight : Obligations.LogicalShiftRight := by
  refine ⟨fun x n => ⟨toNat_shr x n, fun i hi => ?top, fun hx => ?small⟩, by decide, by decide⟩
  case top => rw [getLsbD_shr]; exact BitVec.getLsbD_of_ge x _ (by omega)
  case small => exact BitVec.eq_of_toNat_eq (by rw [toNat_shr, Nat.div_eq_of_lt hx]; rfl)

/-! #### The scheduler's and the compressor's sums of rotations -/

/-- Exclusive or of three words works bit by bit. -/
theorem getLsbD_xor3 (u v w : Word) (i : Nat) :
    (xor3 u v w).getLsbD i = ((u.getLsbD i ^^ v.getLsbD i) ^^ w.getLsbD i) := by
  rw [xor3, BitVec.getLsbD_xor, BitVec.getLsbD_xor]

/-- A right rotation is linear over exclusive or. -/
theorem rotr_xor (x y : Word) {n : Nat} (hn : n ≤ 64) : rotr (x ^^^ y) n = rotr x n ^^^ rotr y n := by
  refine BitVec.eq_of_getLsbD_eq fun i hi => ?_
  simp only [BitVec.getLsbD_xor, getLsbD_rotr _ hn hi]

/-- A logical shift right is linear over exclusive or. -/
theorem shr_xor (x y : Word) (n : Nat) : shr (x ^^^ y) n = shr x n ^^^ shr y n :=
  BitVec.ushiftRight_xor_distrib x y n

/-- Exclusive or of three is linear over exclusive or. -/
theorem xor3_xor (u u' v v' w w' : Word) :
    xor3 (u ^^^ u') (v ^^^ v') (w ^^^ w') = xor3 u v w ^^^ xor3 u' v' w' := by
  simp only [xor3]; ac_rfl

/-- A scheduler function of R53 and R54, two rotations and a shift, bit by bit. -/
theorem getLsbD_xor3_rotr_rotr_shr (x : Word) {a b i : Nat} (c : Nat) (ha : a ≤ 64) (hb : b ≤ 64) (hi : i < 64) :
    (xor3 (rotr x a) (rotr x b) (shr x c)).getLsbD i
      = ((x.getLsbD ((i + a) % 64) ^^ x.getLsbD ((i + b) % 64)) ^^ x.getLsbD (i + c)) := by
  rw [getLsbD_xor3, getLsbD_rotr x ha hi, getLsbD_rotr x hb hi, getLsbD_shr]

/-- A scheduler function of R53 and R54, two rotations and a shift, is linear over exclusive or. -/
theorem xor3_rotr_rotr_shr_xor (x y : Word) {a b : Nat} (c : Nat) (ha : a ≤ 64) (hb : b ≤ 64) :
    xor3 (rotr (x ^^^ y) a) (rotr (x ^^^ y) b) (shr (x ^^^ y) c)
      = xor3 (rotr x a) (rotr x b) (shr x c) ^^^ xor3 (rotr y a) (rotr y b) (shr y c) := by
  rw [rotr_xor x y ha, rotr_xor x y hb, shr_xor, xor3_xor]

/-- A compressor function of R55 and R56, three rotations, bit by bit. -/
theorem getLsbD_xor3_rotr_rotr_rotr (x : Word) {a b c i : Nat} (ha : a ≤ 64) (hb : b ≤ 64) (hc : c ≤ 64)
    (hi : i < 64) :
    (xor3 (rotr x a) (rotr x b) (rotr x c)).getLsbD i
      = ((x.getLsbD ((i + a) % 64) ^^ x.getLsbD ((i + b) % 64)) ^^ x.getLsbD ((i + c) % 64)) := by
  rw [getLsbD_xor3, getLsbD_rotr x ha hi, getLsbD_rotr x hb hi, getLsbD_rotr x hc hi]

/-- Settles O3: both functions are two rotations and a shift; the fixed values are computed. -/
theorem schedulerSigmas : Obligations.SchedulerSigmas := by
  refine ⟨fun x i hi => ⟨?bits0, ?bits1⟩, fun x y => ⟨?linear0, ?linear1⟩, ?values⟩
  case bits0 => exact getLsbD_xor3_rotr_rotr_shr x 7 (by decide) (by decide) hi
  case bits1 => exact getLsbD_xor3_rotr_rotr_shr x 6 (by decide) (by decide) hi
  case linear0 => exact xor3_rotr_rotr_shr_xor x y 7 (by decide) (by decide)
  case linear1 => exact xor3_rotr_rotr_shr_xor x y 6 (by decide) (by decide)
  case values => decide

/-- Settles O4: both functions are three rotations; the fixed values are computed. -/
theorem compressorSigmas : Obligations.CompressorSigmas := by
  refine ⟨fun x i hi => ⟨?bits0, ?bits1⟩, ?values⟩
  case bits0 => exact getLsbD_xor3_rotr_rotr_rotr x (by decide) (by decide) (by decide) hi
  case bits1 => exact getLsbD_xor3_rotr_rotr_rotr x (by decide) (by decide) (by decide) hi
  case values => decide

/-! #### Choose and majority -/

/-- A bit of `Ch` is chosen between `y` and `z` by `x` (R57). -/
theorem getLsbD_ch (x y z : Word) (i : Nat) :
    (ch x y z).getLsbD i = if x.getLsbD i then y.getLsbD i else z.getLsbD i := by
  rw [ch, BitVec.getLsbD_xor, BitVec.getLsbD_and, BitVec.getLsbD_and, BitVec.getLsbD_not]
  by_cases hi : i < 64
  · cases x.getLsbD i <;> simp [hi]
  · simp [BitVec.getLsbD_of_ge _ i (Nat.le_of_not_lt hi)]

/-- A bit of `Maj` is the majority of the three bits (R58). -/
theorem getLsbD_maj (x y z : Word) (i : Nat) :
    (maj x y z).getLsbD i
      = ((x.getLsbD i && y.getLsbD i) || (x.getLsbD i && z.getLsbD i) || (y.getLsbD i && z.getLsbD i)) := by
  simp only [maj, getLsbD_xor3, BitVec.getLsbD_and]
  cases x.getLsbD i <;> cases y.getLsbD i <;> cases z.getLsbD i <;> rfl

/-- A word of ones chooses the first (R57). -/
theorem ch_allOnes (y z : Word) : ch (BitVec.allOnes 64) y z = y := by
  refine BitVec.eq_of_getLsbD_eq fun i hi => ?_
  rw [getLsbD_ch, BitVec.getLsbD_allOnes, decide_eq_true hi, if_pos rfl]

/-- A word of zeros chooses the second (R57). -/
theorem ch_zero (y z : Word) : ch 0 y z = z := by
  refine BitVec.eq_of_getLsbD_eq fun i _ => ?_
  rw [getLsbD_ch]; simp

/-- Choosing between a word and itself gives the word (R57). -/
theorem ch_same (x y : Word) : ch x y y = y := by
  refine BitVec.eq_of_getLsbD_eq fun i _ => ?_
  rw [getLsbD_ch, ite_self]

/-- Where `x` has 1 it chooses that 1, elsewhere `z` (R57). -/
theorem ch_self_left (x z : Word) : ch x x z = x ||| z := by
  refine BitVec.eq_of_getLsbD_eq fun i _ => ?_
  rw [getLsbD_ch, BitVec.getLsbD_or]
  cases x.getLsbD i <;> rfl

/-- Where `x` has 0 it chooses that 0, elsewhere `y` (R57). -/
theorem ch_self_right (x y : Word) : ch x y x = x &&& y := by
  refine BitVec.eq_of_getLsbD_eq fun i _ => ?_
  rw [getLsbD_ch, BitVec.getLsbD_and]
  cases x.getLsbD i <;> rfl

/-- Two equal votes decide (R58). -/
theorem maj_self_left (x z : Word) : maj x x z = x := by
  refine BitVec.eq_of_getLsbD_eq fun i _ => ?_
  rw [getLsbD_maj]
  cases x.getLsbD i <;> rfl

/-- `Maj` is symmetric in its first two words (R58). -/
theorem maj_comm (x y z : Word) : maj x y z = maj y x z := by
  simp only [maj, xor3]; ac_rfl

/-- `Maj` is unchanged when its words move round; with `maj_comm`, by every permutation of them (R58). -/
theorem maj_rotate (x y z : Word) : maj x y z = maj y z x := by
  simp only [maj, xor3]; ac_rfl

/-- Settles O5: the bits by `getLsbD_ch` and `getLsbD_maj`, the identities from them. -/
theorem chooseAndMajority : Obligations.ChooseAndMajority := by
  refine ⟨fun x y z i => ⟨getLsbD_ch x y z i, getLsbD_maj x y z i⟩, fun x y z => ?_, ?values⟩
  · exact ⟨ch_allOnes y z, ch_zero y z, ch_same x y, ch_self_left x z, ch_self_right x y, maj_self_left x z,
      maj_comm x y z, maj_rotate x y z, (maj_rotate _ 0 0).trans (maj_self_left 0 _), maj_self_left _ 0⟩
  case values => decide

end Sys2Proof.Machine

/-! ### The padder -/

namespace Sys2Proof.Machine

/-! #### The padder's blocks -/

/-- Sixteen bytes, 8 zeros and then `BEBYTES(v)`, read as one big-endian number equal to `v` (R63). -/
theorem sum_zeros_beByte {v : Word} {f : Fin 16 → Byte} (zeros : ∀ j : Fin 8, f (Fin.castAdd 8 j) = 0x00)
    (trailer : ∀ j : Fin 8, f (j.addNat 8) = beByte v j.val) :
    ∑ j : Fin 16, (f j).toNat * 2 ^ (8 * (15 - j.val)) = v.toNat := by
  calc ∑ j : Fin 16, (f j).toNat * 2 ^ (8 * (15 - j.val))
    _ = ∑ j : Fin 8, (beByte v j.val).toNat * 2 ^ (8 * (7 - j.val)) := by
      rw [Fin.sum_univ_add (a := 8) (b := 8)]
      simp [zeros, trailer]
    _ = v.toNat := by rw [← beWord_toNat fun k => beByte v k.val, beWord_beByte]

/-- Byte `k` of the padded block (R61 to R63): the trailer starts behind the terminator wherever there is one. -/
theorem pad_pb0_getElem (b : Block) (n : Nat) (len : Word) {k : Nat} (hk : k < 128) :
    (pad b n len).pb0[k] = if k < n then b[k] else if k = n then 0x80
      else if n ≤ 111 ∧ 120 ≤ k then beByte len (k - 120) else 0x00 := by
  by_cases hn : n ≤ 111
  · rw [pad_of_le b len hn, sealBlock_getElem, terminate_getElem]
    by_cases hk' : 120 ≤ k
    · simp [hn, hk', show ¬ k < n by omega, show k ≠ n by omega]
    · simp [hk']
  · rw [pad_of_gt b len (by omega), terminate_getElem]
    simp [hn]

/-- Up to the threshold there is no synthetic block (R63). -/
theorem pad_pb1_of_le (b : Block) {n : Nat} (len : Word) (hn : n ≤ 111) : (pad b n len).pb1 = none := by
  rw [pad_of_le b len hn]

/-- The last 16 bytes of a block sealed by the padder, as one number (R63). -/
theorem pad_pb0_sum (b : Block) {n : Nat} (len : Word) (hn : n ≤ 111) :
    ∑ j : Fin 16, ((pad b n len).pb0[112 + j.val]).toNat * 2 ^ (8 * (15 - j.val)) = len.toNat := by
  refine sum_zeros_beByte (f := fun j => (pad b n len).pb0[112 + j.val]) (fun j => ?zeros) (fun j => ?trailer)
  case zeros =>
    simp [pad_pb0_getElem, show ¬ 112 + j.val < n by omega, show 112 + j.val ≠ n by omega,
      show ¬ 120 ≤ 112 + j.val by omega]
  case trailer =>
    simp [pad_pb0_getElem, hn, show ¬ 112 + (j.val + 8) < n by omega, show 112 + (j.val + 8) ≠ n by omega,
      show 120 ≤ 112 + (j.val + 8) by omega, show 112 + (j.val + 8) - 120 = j.val by omega]

/-- Settles O8: the padded block byte by byte, its trailer as a number, and the sealed zero block of R64. -/
theorem padderBuildsBlocks : Obligations.PadderBuildsBlocks := by
  intro b n len _
  refine ⟨fun k hk => pad_pb0_getElem b n len hk,
    fun hn => ⟨pad_pb1_of_le b len hn, pad_pb0_sum b len hn⟩,
    fun hn => ⟨sealBlock zeroBlock len, ?_, fun k hk => ?_⟩⟩
  · rw [pad_of_gt b len hn]
  · rw [sealBlock_getElem, zeroBlock_getElem]

/-- Terminating reads no byte behind the valid ones (R62). -/
theorem terminate_congr {b b' : Block} {n : Nat} (h : ∀ k, (hk : k < 128) → k < n → b[k] = b'[k]) :
    terminate b n = terminate b' n := by
  refine Vector.ext fun k hk => ?_
  rw [terminate_getElem, terminate_getElem]
  by_cases valid : k < n
  · rw [if_pos valid, if_pos valid, h k hk valid]
  · rw [if_neg valid, if_neg valid]

/-- Settles O9: the padder reads its block through `terminate` only; with no valid byte, `pad_pb0_getElem` at
`n = 0` (R65). -/
theorem padderReadsOnlyValidBytes : Obligations.PadderReadsOnlyValidBytes := by
  refine ⟨fun b b' n len h => ?_, fun b len => ⟨pad_pb1_of_le b len (by decide), ?first, fun k hk h1 h120 => ?zeros,
    fun k hk h120 => ?trailer⟩⟩
  · simp only [pad, terminate_congr h]
  case first => rw [pad_pb0_getElem b 0 len]; rfl
  case zeros => simp [pad_pb0_getElem b 0 len hk, show k ≠ 0 by omega, show ¬ 120 ≤ k by omega]
  case trailer => simp [pad_pb0_getElem b 0 len hk, show k ≠ 0 by omega, h120]

/-! #### The padded message -/

theorem paddedMessage_length (m : List Byte) :
    (paddedMessage m).length = m.length + 1 + zeroCount m.length + 16 := by
  simp only [paddedMessage, List.length_append, List.length_singleton, List.length_replicate, beBytes_length]

/-- The padded message is one block longer than the full blocks, or two where the trailer does not fit (R68). -/
theorem paddedMessage_length_eq_blocks (m : List Byte) :
    (paddedMessage m).length = 128 * (m.length / 128 + if m.length % 128 ≤ 111 then 1 else 2) := by
  rw [paddedMessage_length, zeroCount]
  split <;> omega

/-- The padded message in three parts: the message, the terminator, and all that follows it. -/
theorem paddedMessage_eq (m : List Byte) :
    paddedMessage m = m ++ 0x80 :: (List.replicate (zeroCount m.length + 8) 0x00
      ++ beBytes (BitVec.ofNat 64 (8 * m.length))) := by
  simp [paddedMessage, List.replicate_add]

theorem paddedMessage_getElem?_terminator (m : List Byte) : (paddedMessage m)[m.length]? = some 0x80 := by
  simp [paddedMessage_eq]

/-- Behind the terminator stand zeros, up to the last 8 bytes (R62, R63). -/
theorem paddedMessage_getElem?_zero (m : List Byte) {k : Nat} (lo : m.length < k)
    (hi : k + 8 < (paddedMessage m).length) : (paddedMessage m)[k]? = some 0x00 := by
  rw [paddedMessage_length] at hi
  obtain ⟨d, rfl⟩ : ∃ d, k = m.length + (d + 1) := ⟨k - m.length - 1, by omega⟩
  rw [paddedMessage_eq, List.getElem?_append_right (by omega), Nat.add_sub_cancel_left, List.getElem?_cons_succ,
    List.getElem?_append_left (by simp; omega), List.getElem?_replicate_of_lt (by omega)]

/-- The last 8 bytes hold the bit count modulo 2^64 (R63, R66). -/
theorem paddedMessage_getElem?_trailer (m : List Byte) {k : Nat} (hk : k < 8) :
    (paddedMessage m)[(paddedMessage m).length - 8 + k]? = some (beByte (BitVec.ofNat 64 (8 * m.length)) k) := by
  have index : (paddedMessage m).length - 8 + k = m.length + ((zeroCount m.length + 8 + k) + 1) := by
    rw [paddedMessage_length]; omega
  rw [index, paddedMessage_eq, List.getElem?_append_right (by omega), Nat.add_sub_cancel_left,
    List.getElem?_cons_succ, List.getElem?_append_right (by simp), List.length_replicate, Nat.add_sub_cancel_left,
    beBytes_getElem? _ hk]

/-- The last 16 bytes of a padded message, as one number (R68). -/
theorem paddedMessage_sum (m : List Byte) :
    ∑ j : Fin 16, ((paddedMessage m).getD ((paddedMessage m).length - 16 + j.val) 0).toNat
      * 2 ^ (8 * (15 - j.val)) = (8 * m.length) % 2 ^ 64 := by
  have length := paddedMessage_length m
  rw [← BitVec.toNat_ofNat]
  refine sum_zeros_beByte (f := fun j => (paddedMessage m).getD ((paddedMessage m).length - 16 + j.val) 0)
    (fun j => ?zeros) (fun j => ?trailer)
  case zeros =>
    rw [List.getD_eq_getElem?_getD, Fin.val_castAdd, paddedMessage_getElem?_zero m (by omega) (by omega)]
    rfl
  case trailer =>
    have index : (paddedMessage m).length - 16 + (j.val + 8) = (paddedMessage m).length - 8 + j.val := by omega
    rw [List.getD_eq_getElem?_getD, Fin.val_addNat, index, paddedMessage_getElem?_trailer m j.isLt]
    rfl

theorem blocksOf_length (m : List Byte) : (blocksOf m).length = m.length / 128 := by simp [blocksOf]

/-- Settles O10: the lengths from `paddedMessage_length_eq_blocks`, the bytes region by region. -/
theorem paddedMessageShape : Obligations.PaddedMessageShape := by
  intro m
  have length := paddedMessage_length_eq_blocks m
  refine ⟨?whole, ?blocks, paddedMessage_getElem?_terminator m,
    fun k lo hi => paddedMessage_getElem?_zero m lo (by omega), paddedMessage_sum m, ?congruent⟩
  case whole => omega
  case blocks => rw [blocksOf_length, length, Nat.mul_div_cancel_left _ (by decide)]
  case congruent => split at length <;> omega

end Sys2Proof.Machine

/-! ### The message scheduler -/

namespace Sys2Proof.Machine

/-! #### The recurrence -/

theorem schedule_length (b : Block) : (schedule b).length = 80 := by
  simp [schedule_eq]

/-- Every word that an extension adds follows the recurrence, read in the extended list (R70): the words that
`nextWord` reads are kept by the steps after it. -/
theorem extend_getD_of_ge (n : Nat) {ws : List Word} {t : Nat} (h16 : 16 ≤ ws.length) (lo : ws.length ≤ t)
    (hi : t < ws.length + n) :
    (extend n ws).getD t 0 = smallSigma1 ((extend n ws).getD (t - 2) 0) + (extend n ws).getD (t - 7) 0
      + smallSigma0 ((extend n ws).getD (t - 15) 0) + (extend n ws).getD (t - 16) 0 := by
  induction n generalizing ws with
  | zero => omega
  | succ n ih =>
    have length : (ws ++ [nextWord ws]).length = ws.length + 1 := List.length_append
    obtain rfl | later := lo.eq_or_lt
    · have added : (extend (n + 1) ws).getD ws.length 0 = nextWord ws := by
        rw [extend, extend_getD_of_lt _ _ _ (by omega)]; simp
      have kept (d : Nat) (hd : 0 < d) :
          (extend (n + 1) ws).getD (ws.length - d) 0 = ws.getD (ws.length - d) 0 :=
        extend_getD_of_lt _ _ _ (by omega)
      rw [added, nextWord, kept 2 (by decide), kept 7 (by decide), kept 15 (by decide), kept 16 (by decide)]
    · exact ih (by omega) (by omega) (by omega)

/-- The recurrence of R70. -/
theorem schedule_getD_of_ge (b : Block) {t : Nat} (lo : 16 ≤ t) (hi : t < 80) :
    (schedule b).getD t 0 = smallSigma1 ((schedule b).getD (t - 2) 0) + (schedule b).getD (t - 7) 0
      + smallSigma0 ((schedule b).getD (t - 15) 0) + (schedule b).getD (t - 16) 0 := by
  have length : ((List.finRange 16).map (frameWord b)).length = 16 := by simp
  rw [schedule_eq]
  exact extend_getD_of_ge 64 (by omega) (by omega) (by omega)

/-- The recurrence of R70, from the values of the four words it reads. -/
theorem schedule_getD_of_values {b : Block} {t : Nat} {w2 w7 w15 w16 : Word} (lo : 16 ≤ t) (hi : t < 80)
    (h2 : (schedule b).getD (t - 2) 0 = w2) (h7 : (schedule b).getD (t - 7) 0 = w7)
    (h15 : (schedule b).getD (t - 15) 0 = w15) (h16 : (schedule b).getD (t - 16) 0 = w16) :
    (schedule b).getD t 0 = smallSigma1 w2 + w7 + smallSigma0 w15 + w16 := by
  rw [schedule_getD_of_ge b lo hi, h2, h7, h15, h16]

/-- Byte `k` of a framed word, from the most significant, is byte `8i + k` of the block (R69). -/
theorem beByte_frameWord (b : Block) (i : Fin 16) {k : Nat} (hk : k < 8) :
    beByte (frameWord b i) k = b[8 * i.val + k] :=
  beByte_beWord _ ⟨k, hk⟩

/-! #### Fixed blocks -/

/-- A block of one repeated byte frames to one repeated word. -/
theorem frameWord_of_const {b : Block} {c : Byte} (h : ∀ k, (hk : k < 128) → b[k] = c) (i : Fin 16) :
    frameWord b i = beWord fun _ => c := by
  simp only [frameWord, h]

/-- The schedule of an all-zero block is zero: the recurrence keeps zeros (R70). -/
theorem schedule_zeroBlock {t : Nat} (ht : t < 80) : (schedule zeroBlock).getD t 0 = 0 := by
  induction t using Nat.strong_induction_on with
  | _ t ih =>
    by_cases framed : t < 16
    · rw [schedule_getD_of_lt _ framed, frameWord_of_const zeroBlock_getElem]; decide
    · have earlier (d : Nat) (hd : 0 < d) : (schedule zeroBlock).getD (t - d) 0 = 0 :=
        ih _ (by omega) (by omega)
      exact (schedule_getD_of_values (by omega) ht (earlier 2 (by decide)) (earlier 7 (by decide))
        (earlier 15 (by decide)) (earlier 16 (by decide))).trans (by decide)

/-- The first four words that the recurrence gives for an all-`0xFF` block (R70). -/
theorem schedule_of_all_ff {b : Block} (h : ∀ k, (hk : k < 128) → b[k] = 0xff) :
    (schedule b).getD 16 0 = 0x05fffffffffffffc ∧ (schedule b).getD 17 0 = 0x05fffffffffffffc
    ∧ (schedule b).getD 18 0 = 0xd21780bfffffffdd ∧ (schedule b).getD 19 0 = 0xd21780bfffffffdd := by
  have framed (i : Nat) (hi : i < 16 := by decide) : (schedule b).getD i 0 = 0xffffffffffffffff := by
    rw [schedule_getD_of_lt _ hi, frameWord_of_const h]; decide
  have w16 : (schedule b).getD 16 0 = 0x05fffffffffffffc :=
    (schedule_getD_of_values (by decide) (by decide) (framed 14) (framed 9) (framed 1) (framed 0)).trans (by decide)
  have w17 : (schedule b).getD 17 0 = 0x05fffffffffffffc :=
    (schedule_getD_of_values (by decide) (by decide) (framed 15) (framed 10) (framed 2) (framed 1)).trans (by decide)
  have w18 : (schedule b).getD 18 0 = 0xd21780bfffffffdd :=
    (schedule_getD_of_values (by decide) (by decide) w16 (framed 11) (framed 3) (framed 2)).trans (by decide)
  have w19 : (schedule b).getD 19 0 = 0xd21780bfffffffdd :=
    (schedule_getD_of_values (by decide) (by decide) w17 (framed 12) (framed 4) (framed 3)).trans (by decide)
  exact ⟨w16, w17, w18, w19⟩

/-- The padded block of "abc" (R61). -/
def abcBlock : Block :=
  sealBlock (terminate (Vector.ofFn fun k => if k.val = 0 then 0x61 else if k.val = 1 then 0x62 else 0x63) 3) 24

/-- The 16 framed words of "abc" (R69). -/
def abcWords : List Word := 0x6162638000000000 :: (List.replicate 14 0 ++ [0x18])

theorem map_frameWord_abcBlock : (List.finRange 16).map (frameWord abcBlock) = abcWords := by decide +kernel

theorem schedule_abcBlock : schedule abcBlock = extend 64 abcWords := by
  rw [schedule_eq, map_frameWord_abcBlock]

/-- The framed words stand first in the schedule of "abc". -/
theorem schedule_abcBlock_getD_of_lt {i : Nat} (hi : i < 16) :
    (schedule abcBlock).getD i 0 = abcWords.getD i 0 := by
  rw [schedule_abcBlock, extend_getD_of_lt _ _ _ (by simpa [abcWords] using hi)]

/-- Between its first word and its length, "abc" frames to zeros. -/
theorem schedule_abcBlock_zeros {t : Nat} (lo : 1 ≤ t) (hi : t ≤ 14) : (schedule abcBlock).getD t 0 = 0 := by
  rw [schedule_abcBlock_getD_of_lt (by omega)]
  interval_cases t <;> rfl

/-- The first three words that the recurrence gives for "abc" (R70). -/
theorem schedule_abcBlock_first :
    (schedule abcBlock).getD 16 0 = 0x6162638000000000 ∧ (schedule abcBlock).getD 17 0 = 0x00030000000000c0
    ∧ (schedule abcBlock).getD 18 0 = 0x0a9699a24c700003 := by
  have framed (i : Nat) (hi : i < 16 := by decide) := schedule_abcBlock_getD_of_lt hi
  have w16 : (schedule abcBlock).getD 16 0 = 0x6162638000000000 :=
    (schedule_getD_of_values (by decide) (by decide) (framed 14) (framed 9) (framed 1) (framed 0)).trans (by decide)
  have w17 : (schedule abcBlock).getD 17 0 = 0x00030000000000c0 :=
    (schedule_getD_of_values (by decide) (by decide) (framed 15) (framed 10) (framed 2) (framed 1)).trans (by decide)
  have w18 : (schedule abcBlock).getD 18 0 = 0x0a9699a24c700003 :=
    (schedule_getD_of_values (by decide) (by decide) w16 (framed 11) (framed 3) (framed 2)).trans (by decide)
  exact ⟨w16, w17, w18⟩

/-- The last word of the schedule of "abc" (R70): the recurrence run over its 64 steps by the kernel. -/
theorem schedule_abcBlock_last : (schedule abcBlock).getD 79 0 = 0x92aeeed1a7bcf7d2 := by
  rw [schedule_abcBlock]; decide +kernel

/-- Settles O11: the framing from `beByte_frameWord`, the recurrence from `schedule_getD_of_ge`, and the words of
the three fixed blocks. -/
theorem scheduleFramesAndRecurs : Obligations.ScheduleFramesAndRecurs := by
  obtain ⟨ff16, ff17, ff18, ff19⟩ := schedule_of_all_ff fun k hk => Vector.getElem_replicate hk
  refine ⟨fun b => ⟨schedule_length b, fun i hi k _ hk => ?framing, fun t => schedule_getD_of_ge b⟩,
    fun t => schedule_zeroBlock, ff16, ff17, ff18, ff19, ?abc⟩
  case framing => rw [schedule_getD_of_lt b hi]; exact beByte_frameWord b ⟨i, hi⟩ hk
  case abc =>
    rintro _ rfl
    obtain ⟨w16, w17, w18⟩ := schedule_abcBlock_first
    exact ⟨schedule_abcBlock_getD_of_lt (by decide), fun t => schedule_abcBlock_zeros,
      schedule_abcBlock_getD_of_lt (by decide), w16, w17, w18, schedule_abcBlock_last⟩

end Sys2Proof.Machine

/-! ### The compressor -/

namespace Sys2Proof.Machine

/-! #### One round -/

/-- Loading keeps the order of `H` (R73): back in the order of R76, the registers are `H` itself. -/
theorem loadWork_toVector (h : Vector Word 8) : (loadWork h).toVector = h := by
  refine Vector.ext fun i hi => ?_
  interval_cases i <;> rfl

/-- `T1` is the sum of its five operands modulo 2^64 (R74). -/
theorem temp1_toNat (r : Work) (k w : Word) :
    (temp1 r k w).toNat
      = (r.h.toNat + (bigSigma1 r.e).toNat + (ch r.e r.f r.g).toNat + k.toNat + w.toNat) % 2 ^ 64 := by
  simp only [temp1, BitVec.toNat_add, Nat.mod_add_mod]

/-- `T2` is the sum of its two operands modulo 2^64 (R74). -/
theorem temp2_toNat (r : Work) :
    (temp2 r).toNat = ((bigSigma0 r.a).toNat + (maj r.a r.b r.c).toNat) % 2 ^ 64 :=
  BitVec.toNat_add _ _

/-- Round 0 of "abc" (R74, R75): the temporaries first, and the registers from them. -/
theorem round_abc_first :
    temp1 (loadWork iv) (kAt 0) 0x6162638000000000 = 0xb37b0cfa1b97e8a0
    ∧ temp2 (loadWork iv) = 0x4334c1bea164f555
    ∧ (round (loadWork iv) (kAt 0) 0x6162638000000000).a = 0xf6afceb8bcfcddf5
    ∧ (round (loadWork iv) (kAt 0) 0x6162638000000000).e = 0x58cb02347ab51f91 := by
  have t1 : temp1 (loadWork iv) (kAt 0) 0x6162638000000000 = 0xb37b0cfa1b97e8a0 := by decide
  have t2 : temp2 (loadWork iv) = 0x4334c1bea164f555 := by decide
  refine ⟨t1, t2, ?a, ?e⟩
  case a => rw [round, t1, t2]; decide
  case e => rw [round, t1]; decide

/-- Settles O12: the registers in order, the temporaries as sums, and round 0 of "abc". -/
theorem roundsUpdateWorkingRegisters : Obligations.RoundsUpdateWorkingRegisters := by
  obtain ⟨t1, t2, a, e⟩ := round_abc_first
  exact ⟨loadWork_toVector, fun r k w => ⟨temp1_toNat r k w, temp2_toNat r, rfl⟩,
    rfl, rfl, t1, t2, a, rfl, e, rfl⟩

/-! #### Eighty rounds -/

/-- Registers that start at `r` and take every round up to `n` are the model's after as many rounds (R77). -/
theorem eq_rounds_of_steps {ws : List Word} {r : Work} {reg : Nat → Work} {n : Nat} (start : reg 0 = r)
    (steps : ∀ t, t < n → reg (t + 1) = round (reg t) (kAt t) (ws.getD t 0)) : reg n = rounds ws r n := by
  induction n with
  | zero => exact start
  | succ n ih =>
    rw [steps n n.lt_succ_self, ih fun t ht => steps t (Nat.lt_succ_of_lt ht), rounds_succ]

/-- Register `a` after the 80 rounds of "abc" from `IV` (R76), run by the kernel over the computed schedule. -/
theorem rounds_abcBlock_a : (rounds (schedule abcBlock) (loadWork iv) 80).a = 0x73a54f399fa4b1b2 := by
  rw [schedule_abcBlock]; decide +kernel

/-- The example of R76: the first word of the digest of "abc". -/
theorem compress_abcBlock_first : (compress iv abcBlock)[0] = 0xddaf35a193617aba :=
  calc (compress iv abcBlock)[0]
    _ = 0x6a09e667f3bcc908 + (rounds (schedule abcBlock) (loadWork iv) 80).a :=
        compress_getElem iv abcBlock 0 (by decide)
    _ = 0xddaf35a193617aba := by rw [rounds_abcBlock_a]; decide

/-- Settles O13: the sequence is the model's by `eq_rounds_of_steps`, and each word is fed forward on its own. -/
theorem compressRunsEightyRounds : Obligations.CompressRunsEightyRounds := by
  refine ⟨fun h b reg start steps i => ?_, compress_abcBlock_first⟩
  have fed : (compress h b)[i] = h[i] + (reg 80).toVector[i] := by
    rw [eq_rounds_of_steps start steps]; exact compress_getElem h b i i.isLt
  rw [fed, BitVec.toNat_add]

end Sys2Proof.Machine

/-! ### Commands: what a step does to STATE and BUSY -/

namespace Sys2Proof.Machine

/-- Idle under the invariant and not DONE is STREAMING: FINALIZING is held with a FINAL in flight only (R83). -/
theorem Inv.streaming_of_idle {s : State} (hi : Inv s) (idle : s.busy = false) (hd : s.ctrl ≠ .done) :
    s.ctrl = .streaming := by
  have hfin := (hi.pend_none_of_idle idle).2
  cases hs : s.ctrl with
  | streaming => rfl
  | finalizing => exact absurd hs hfin
  | done => exact absurd hs hd

/-- A CMD write leaves STATE and BUSY as they are, or accepts a command while idle (R80). -/
theorem State.writeCommand_control (s : State) (c : Option Instr) :
    ((s.writeCommand c).ctrl = s.ctrl ∧ (s.writeCommand c).busy = s.busy)
    ∨ (s.busy = false ∧ ∃ i, (i = .init ∨ s.ctrl ≠ .done) ∧ s.writeCommand c = s.accept i) := by
  cases hb : s.busy with
  | true => rw [State.writeCommand_of_busy hb]; simp [hb]
  | false =>
    cases c with
    | none => rw [State.writeCommand_of_illegal hb]; simp [hb]
    | some i =>
      rw [State.writeCommand_of_legal hb]
      obtain ⟨he, hc⟩ | ⟨he, -⟩ | ⟨he, -⟩ := State.admit_cases s i
      · exact .inr ⟨rfl, i, hc.imp_right And.right, he⟩
      · rw [he]; exact .inl ⟨rfl, hb⟩
      · rw [he]; exact .inl ⟨State.raiseIfErr_ctrl _ _, by simpa using hb⟩

/-- A host step leaves STATE and BUSY as they are, or accepts a command while idle (R79, R80). -/
theorem hostStep_control {s t : State} (hs : s.turn = .host) (h : hostStep s = .next t) :
    (t.ctrl = s.ctrl ∧ t.busy = s.busy)
    ∨ (s.busy = false ∧ ∃ i, (i = .init ∨ s.ctrl ≠ .done)
        ∧ t.ctrl = acceptedCtrl s.ctrl i ∧ t.busy = true ∧ t.pend = some i) := by
  obtain rfl | ⟨_, rfl⟩ | ⟨_, rest, rfl, rfl | ⟨_, rfl⟩ | ⟨_, _, _, _, _, _, _, _, rfl⟩ | ⟨c, rfl⟩⟩ :=
    hostStep_cases hs h
  case inr.inr.inr.inr.inr =>
    obtain same | ⟨idle, i, hi, he⟩ := State.writeCommand_control { s with host := rest } c
    · exact .inl same
    · exact .inr ⟨idle, i, hi, by rw [he]; exact ⟨rfl, rfl, rfl⟩⟩
  all_goals simp

/-- The three rows of R93 for the acceptance of a command. -/
theorem Transition.of_acceptance {s t : State} (hi : Inv s) (idle : s.busy = false) {i : Instr}
    (allowed : i = .init ∨ s.ctrl ≠ .done) (hctrl : t.ctrl = acceptedCtrl s.ctrl i) (hbusy : t.busy = true)
    (hpend : t.pend = some i) : Transition s t := by
  have streaming (hne : i ≠ .init) : s.ctrl = .streaming :=
    hi.streaming_of_idle idle (allowed.resolve_left hne)
  cases i with
  | init => exact .inr (.inl ⟨idle, hctrl, hbusy, hpend⟩)
  | block =>
    have hs := streaming (by simp)
    exact .inr (.inr (.inr (.inl ⟨hs, idle, hctrl.trans hs, hbusy, hpend⟩)))
  | final n =>
    exact .inr (.inr (.inr (.inr (.inr (.inl ⟨streaming (by simp), idle, hctrl, hbusy, n, hpend⟩)))))

/-- STATE when the command in flight has completed (R82, R84, R86). -/
def completedCtrl (ctrl : Ctrl) : Instr → Ctrl
  | .init => .streaming
  | .block => ctrl
  | .final _ => .done

/-- What every completion does to STATE, BUSY, PEND and the order of steps. -/
theorem exec_core_control {i : Instr} {s t : State} (hs : s.turn = .core) (h : exec i s = .next t) :
    t.ctrl = completedCtrl s.ctrl i ∧ t.busy = false ∧ t.pend = none ∧ t.sched = s.sched := by
  obtain ⟨rfl, rfl⟩ | ⟨rfl, -, rfl⟩ | ⟨n, rfl, -, rfl⟩ := exec_core_cases hs h
  all_goals exact ⟨rfl, rfl, rfl, rfl⟩

/-- The three rows of R93 for the completion of the command in flight. -/
theorem Transition.of_completion {s t : State} (hi : Inv s) (busy : s.busy = true) {i : Instr}
    (hpend : s.pend = some i) (hctrl : t.ctrl = completedCtrl s.ctrl i) (hbusy : t.busy = false) :
    Transition s t := by
  cases i with
  | init => exact .inr (.inr (.inl ⟨busy, hpend, hctrl, hbusy⟩))
  | block =>
    have hs := hi.block_streaming hpend
    exact .inr (.inr (.inr (.inr (.inl ⟨hs, busy, hpend, hctrl.trans hs, hbusy⟩))))
  | final n =>
    have hs := hi.finalizing.mpr ⟨n, hpend⟩
    exact .inr (.inr (.inr (.inr (.inr (.inr (.inl ⟨hs, busy, ⟨n, hpend⟩, hctrl, hbusy⟩))))))

/-- Settles O51: a host step accepts, a core step completes, and the reset event is the table's last row. -/
theorem transitionsAreTheTable : Obligations.TransitionsAreTheTable := by
  intro s t hi h
  obtain ⟨-, h⟩ | ⟨-, h⟩ | ⟨hreset, rfl⟩ := step_cases h
  · obtain same | ⟨idle, i, allowed, hctrl, hbusy, hpend⟩ := hostStep_control rfl h
    · exact .inl same
    · exact .of_acceptance hi idle allowed hctrl hbusy hpend
  · obtain ⟨-, rfl⟩ | ⟨busy, i, hpend, hx⟩ := coreStep_cases h
    · exact .inl ⟨rfl, rfl⟩
    · obtain ⟨hctrl, hbusy, -, -⟩ := exec_core_control rfl hx
      exact .of_completion hi busy hpend hctrl hbusy
  · exact .inr (.inr (.inr (.inr (.inr (.inr (.inr ⟨hreset, rfl, rfl⟩))))))

/-! #### The step of each turn -/

theorem step_host {s : State} (h : s.nextTurn = .agent .host) :
    step s = hostStep { s with sched := s.sched.tail, turn := .host } := by
  rw [step, stepTurn, h]; rfl

theorem step_core {s : State} (h : s.nextTurn = .agent .core) :
    step s = coreStep { s with sched := s.sched.tail, turn := .core } := by
  rw [step, stepTurn, h]; rfl

/-- The core's turn with a command in flight completes it (R79). -/
theorem step_core_of_busy {s : State} {i : Instr} (h : s.nextTurn = .agent .core) (busy : s.busy = true)
    (hpend : s.pend = some i) : step s = exec i { s with sched := s.sched.tail, turn := .core } := by
  simp [step_core h, coreStep, busy, hpend]

theorem step_core_of_idle {s : State} (h : s.nextTurn = .agent .core) (idle : s.busy = false) :
    step s = .next { s with sched := s.sched.tail, turn := .core } := by
  simp [step_core h, coreStep, idle]

/-- Settles O45: `step_core_of_busy` and `step_core_of_idle`. -/
theorem stepCompletesTheCommandInFlight : Obligations.StepCompletesTheCommandInFlight :=
  ⟨fun _ _ => step_core_of_busy, fun _ => step_core_of_idle⟩

/-- The host's turn serves the access of its next line (R79). -/
theorem step_host_of_access {s : State} {a : Access} {rest : List HostOp} (h : s.nextTurn = .agent .host)
    (line : s.host = .access a :: rest) :
    step s = hostAccess a { s with sched := s.sched.tail, host := rest, turn := .host } := by
  simp [step_host h, hostStep, line]

/-- Bit 0 of STATUS is BUSY (R43). -/
theorem State.status_bit_zero (s : State) : s.status.getLsbD 0 = s.busy := (statusWordFields s).1

/-- One poll of `wait` keeps the line exactly while `BUSY = 1` (R48). -/
theorem pollStatus_eq (rest : List HostOp) (s : State) :
    pollStatus rest s
      = { s with reads := s.reads ++ [.w32 s.status], host := if s.busy then s.host else rest } := by
  rw [pollStatus, State.status_bit_zero]
  by_cases hb : s.busy = true
  · rw [if_pos hb, if_pos hb]; rfl
  · rw [if_neg hb, if_neg hb]; rfl

/-- Settles O46: by the host's next line. -/
theorem stepServesTheHost : Obligations.StepServesTheHost := by
  intro s h
  refine ⟨fun a rest => step_host_of_access h, fun rest line => ?wait, fun line => ?none⟩
  case wait =>
    simp only [step_host h, hostStep, line, pollStatus_eq]
    rfl
  case none => simp [step_host h, hostStep, line]

theorem hostWrite_cmd (v : Word) (s : State) : hostWrite 0x80 4 v s = commandWrite (v.extractLsb' 0 32) s := rfl

theorem commandWrite_of_decode {v : BitVec 32} {i : Instr} (h : decode v = .ok i) (s : State) :
    commandWrite v s = exec i s := by
  rw [commandWrite, h]

theorem decode_of_decodeTableWord {w : Nat} {i : Instr} (h : decodeTableWord 32 w = some i) :
    decode (BitVec.ofNat 32 (w % 2 ^ 32)) = .ok i := by
  rw [decodeTableWord, if_pos (le_refl 32)] at h
  cases hd : decode (BitVec.ofNat 32 (w % 2 ^ 32)) with
  | ok j => rw [hd] at h; exact congrArg _ (Option.some.inj h)
  | error e => rw [hd] at h; cases h

theorem extractLsb'_setWidth_word (w : BitVec 32) : (w.setWidth 64).extractLsb' 0 32 = w := by
  ext i hi; simp [BitVec.getLsbD_eq_getElem hi, show i < 64 by omega]

/-- The host's turn with a CMD write of a command's word as its next line runs that command (R27, R79). -/
theorem step_host_of_command {s : State} {v : Word} {i : Instr} {rest : List HostOp}
    (h : s.nextTurn = .agent .host) (line : s.host = .access (.write 0x80 4 v) :: rest)
    (hd : decode (v.extractLsb' 0 32) = .ok i) :
    step s = exec i { s with sched := s.sched.tail, host := rest, turn := .host } := by
  rw [step_host_of_access h line, hostAccess, hostWrite_cmd, commandWrite_of_decode hd]

/-- Settles O44: a word placed by `withFetchWord` is such a line, its upper half 0. -/
theorem stepRunsTheWrittenCommand : Obligations.StepRunsTheWrittenCommand := by
  refine ⟨fun s v i rest => step_host_of_command, fun s w i hw => ?placed⟩
  case placed =>
    have hd : decode (((BitVec.ofNat 32 (w % 2 ^ 32)).setWidth 64).extractLsb' 0 32) = .ok i := by
      rw [extractLsb'_setWidth_word]; exact decode_of_decodeTableWord hw
    exact step_host_of_command (s := s.withFetchWord 32 w) rfl rfl hd

/-! #### Completion after any number of host turns -/

/-- A host access is served or refused with a fault (R31). -/
theorem hostAccess_total (a : Access) {s : State} (hs : s.turn = .host) :
    (∃ t, hostAccess a s = .next t) ∨ ∃ r, hostAccess a s = .fault r := by
  cases a with
  | read off n =>
    by_cases listed : ReadListed off n
    · exact .inl (hostRead_of_listed listed s)
    · exact .inr ((hostRead_of_not_listed listed s).imp' _ fun _ => id)
  | write off n v =>
    by_cases listed : WriteListed off n
    · exact .inl (hostWrite_of_listed listed v hs)
    · exact .inr ((hostWrite_of_not_listed listed v s).imp' _ fun _ => id)

/-- A host step answers a next state or a fault. -/
theorem hostStep_total {s : State} (hs : s.turn = .host) :
    (∃ t, hostStep s = .next t) ∨ ∃ r, hostStep s = .fault r := by
  unfold hostStep
  split
  · exact .inl ⟨_, rfl⟩
  · exact hostAccess_total _ hs
  · exact .inl ⟨_, rfl⟩

theorem hostStep_sched {s t : State} (hs : s.turn = .host) (h : hostStep s = .next t) : t.sched = s.sched := by
  obtain rfl | ⟨_, rfl⟩ | ⟨_, _, rfl, rfl | ⟨_, rfl⟩ | ⟨_, _, _, _, _, _, _, _, rfl⟩ | ⟨_, rfl⟩⟩ :=
    hostStep_cases hs h <;> simp

theorem State.nextTurn_of_sched {s : State} {x : Turn} {rest : List Turn} (h : s.sched = x :: rest) :
    s.nextTurn = x := by rw [State.nextTurn, h]

theorem run_succ_of_next {M : Host.Core} {s t : M.State} (h : M.step s = .next t) (k : Nat) :
    M.run (k + 1) s = M.run k t := by
  rw [Host.Core.run, h]

theorem run_succ_of_fault {M : Host.Core} {s : M.State} {r : M.Fault} (h : M.step s = .fault r) (k : Nat) :
    M.run (k + 1) s = .fault r := by
  rw [Host.Core.run, h]

/-- Settles O57, by induction on the host turns before the core's: each keeps the command in flight. -/
theorem acceptedCommandCompletes : Obligations.AcceptedCommandCompletes := by
  intro k
  induction k with
  | zero =>
    intro s rest hi busy hsched
    obtain ⟨i, hpend⟩ := Option.isSome_iff_exists.mp (hi.busy_pend ▸ busy)
    have hx := step_core_of_busy (State.nextTurn_of_sched hsched) busy hpend
    obtain ⟨t, ht⟩ | hf := exec_total i { s with sched := s.sched.tail, turn := .core }
    · obtain ⟨-, hbusy, hnone, hrest⟩ := exec_core_control rfl ht
      exact .inl ⟨t, run_succ_of_next (M := core) (hx.trans ht) 0, hbusy, hnone, by rw [hrest, hsched]; rfl⟩
    · exact .inr ⟨_, run_succ_of_fault (M := core) (hx.trans hf) 0⟩
  | succ k ih =>
    intro s rest hi busy hsched
    have hturn : s.nextTurn = .agent .host := State.nextTurn_of_sched hsched
    have hx := step_host hturn
    obtain ⟨t, ht⟩ | ⟨r, hr⟩ := hostStep_total (s := { s with sched := s.sched.tail, turn := .host }) rfl
    · have hstep := hx.trans ht
      obtain ⟨-, -, hbusy⟩ := hostStep_keeps_control rfl ht busy
      have htail : t.sched = List.replicate k (.agent .host) ++ .agent .core :: rest := by
        rw [hostStep_sched rfl ht, hsched]; rfl
      rw [run_succ_of_next (M := core) hstep]
      exact ih t rest (invariantIsKept s t hi hstep) (hbusy.trans busy) htail
    · exact .inr ⟨r, run_succ_of_fault (M := core) (hx.trans hr) _⟩

end Sys2Proof.Machine

/-! ### Acceptance of commands -/

namespace Sys2Proof.Machine

/-! #### A command on the host's turn -/

section acceptance
variable {s : State} (hs : s.turn = .host)
include hs

/-- While busy every command raises CMD_BUSY (R98). -/
theorem exec_of_busy (i : Instr) (busy : s.busy = true) : exec i s = .next (withError s .cmdBusy) := by
  rw [exec_host i s hs, State.writeCommand_of_busy busy, raiseIfErr_eq_withError]

/-- INIT while idle, and the others in a message without an error, are accepted (R81, R83, R85). -/
theorem exec_of_ready {i : Instr} (idle : s.busy = false) (ready : i = .init ∨ (s.err = false ∧ s.ctrl ≠ .done)) :
    exec i s = .next (s.accept i) := by
  rw [exec_host i s hs, State.writeCommand_of_legal idle]
  obtain ⟨he, -⟩ | ⟨-, herr, hi⟩ | ⟨-, -, hdone, hi⟩ := State.admit_cases s i
  · rw [he]
  · simp [hi, herr] at ready
  · simp [hi, hdone] at ready

/-- BLOCK and FINAL are ignored once an error is recorded (R100). -/
theorem exec_of_err {i : Instr} (hi : i ≠ .init) (idle : s.busy = false) (herr : s.err = true) :
    exec i s = .next s := by
  rw [exec_host i s hs, State.writeCommand_of_legal idle]
  obtain ⟨-, h⟩ | ⟨he, -⟩ | ⟨-, h, -⟩ := State.admit_cases s i
  · simp [hi, herr] at h
  · rw [he]
  · simp [herr] at h

/-- BLOCK and FINAL raise SEQUENCE in DONE (R97). -/
theorem exec_of_done {i : Instr} (hi : i ≠ .init) (idle : s.busy = false) (herr : s.err = false)
    (hdone : s.ctrl = .done) : exec i s = .next (withError s .sequence) := by
  rw [exec_host i s hs, State.writeCommand_of_legal idle]
  obtain ⟨-, h⟩ | ⟨-, h, -⟩ | ⟨he, -⟩ := State.admit_cases s i
  · simp [hi, hdone] at h
  · simp [herr] at h
  · rw [he, raiseIfErr_eq_withError]

theorem commandWrite_of_busy (v : BitVec 32) (busy : s.busy = true) :
    commandWrite v s = .next (withError s .cmdBusy) := by
  rw [commandWrite_host v s hs, State.writeCommand_of_busy busy, raiseIfErr_eq_withError]

theorem commandWrite_of_illegal_idle {v : BitVec 32} (idle : s.busy = false) (h : decode v = .error .illegal) :
    commandWrite v s = .next (withError s .illegalCmd) := by
  rw [commandWrite_of_illegal h hs, idle]; rfl

end acceptance

/-- Settles O27: the word's decoding picks the command, and its tests are those of `exec` on the host's turn. -/
theorem commandWriteFollowsTheTests : Obligations.CommandWriteFollowsTheTests := by
  intro s v hs
  rw [hostWrite_cmd]
  refine ⟨commandWrite_of_busy hs _, commandWrite_of_illegal_idle hs, fun idle hd => ?init,
    fun idle hd => ?turnedAway, fun idle herr hctrl hd => ?block, fun n idle herr hctrl hd => ?final⟩
  case init => rw [commandWrite_of_decode hd]; exact exec_of_ready hs idle (.inl rfl)
  case turnedAway =>
    obtain ⟨i, hi, hd⟩ : ∃ i, i ≠ .init ∧ decode (v.extractLsb' 0 32) = .ok i := by
      obtain hd | ⟨n, hd⟩ := hd
      · exact ⟨.block, by simp, hd⟩
      · exact ⟨.final n, by simp, hd⟩
    rw [commandWrite_of_decode hd]
    exact ⟨exec_of_err hs hi idle, exec_of_done hs hi idle⟩
  case block => rw [commandWrite_of_decode hd]; exact exec_of_ready hs idle (.inr ⟨herr, hctrl⟩)
  case final => rw [commandWrite_of_decode hd]; exact exec_of_ready hs idle (.inr ⟨herr, hctrl⟩)

/-! #### The command words -/

theorem commandWrite_encode (i : Instr) (s : State) : commandWrite (encode i) s = exec i s :=
  commandWrite_of_decode (decode_encode i) s

/-- A word with the operation of `c` that spells no command with that operation is illegal (R41). -/
theorem decode_illegal_of_op {v : BitVec 32} {c : Instr} (op : fieldOp v = Laws.CommandWord.opOf c)
    (h : ∀ i, Laws.CommandWord.opOf i = Laws.CommandWord.opOf c → v ≠ encode i) : decode v = .error .illegal := by
  rw [decode_eq_illegal_iff, ← Bool.not_eq_true, legalWord_iff]
  rintro ⟨i, rfl⟩
  obtain ⟨-, -, hop, -⟩ := commandWord i
  exact h i (hop.symm.trans op) rfl

/-- FINAL's word is its operation and its count (R38, R48). -/
theorem encode_final (n : BitVec 7) : 0x00000003 + n.setWidth 32 * 256 = encode (.final n) := by
  revert n; decide

theorem masked_encode_final (n : BitVec 7) : encode (.final n) &&& 0xFFFF80FF = 0x00000003 := by
  obtain ⟨-, -, -, count, -⟩ := commandWord (.final n)
  rw [masked_eq_final_iff, count]; rfl

/-! #### STATUS between two states -/

/-- STATUS shows STATE, BUSY, ERR and ERRCODE only (R43). -/
theorem State.status_congr {s t : State} (hctrl : t.ctrl = s.ctrl) (hbusy : t.busy = s.busy) (herr : t.err = s.err)
    (hcode : t.errcode = s.errcode) : t.status = s.status := by
  rw [State.status, State.status, State.dvalid_congr hctrl hbusy herr, hctrl, hbusy, herr, hcode]

/-- What a STATUS of a finished message without an error says of the state (R43). -/
theorem State.of_status_done {s : State} (h : s.status = 0x00000202) :
    s.ctrl = .done ∧ s.busy = false ∧ s.err = false ∧ s.errcode = .none := by
  obtain ⟨busy, -, err, -, code, -, ctrl, -⟩ := s.status_fields
  rw [h] at busy err code ctrl
  refine ⟨?_, ?_, ?_, ?_⟩
  · cases hc : s.ctrl <;> simp [hc, Ctrl.code] at ctrl ⊢
  · cases hb : s.busy <;> simp [hb] at busy ⊢
  · cases he : s.err <;> simp [he] at err ⊢
  · cases hc : s.errcode <;> simp [hc, ErrCode.code] at code ⊢

/-! #### The three commands -/

/-- Settles O28: INIT is ready in every idle state. -/
theorem initAcceptance : Obligations.InitAcceptance := by
  intro s hs
  have accepted (idle : s.busy = false) : exec .init s = .next (s.accept .init) :=
    exec_of_ready hs idle (.inl rfl)
  refine ⟨commandWrite_encode .init s, accepted, exec_of_busy hs .init, fun v idle op hv => ?illegal,
    fun h => ?finished⟩
  case illegal =>
    refine commandWrite_of_illegal_idle hs idle (decode_illegal_of_op (c := .init) op fun i hi => ?_)
    cases i with
    | init => exact hv
    | block | final n => simp [Laws.CommandWord.opOf] at hi
  case finished =>
    obtain ⟨hctrl, idle, herr, hcode⟩ := State.of_status_done h
    have shown := State.status_congr (s := { State.reset with ctrl := .done, busy := true })
      (t := s.accept .init) hctrl rfl herr hcode
    exact ⟨_, accepted idle, shown⟩

/-- Settles O29: the tests of `exec` on the host's turn, and the invariant for FINALIZING. -/
theorem blockAcceptance : Obligations.BlockAcceptance := by
  refine ⟨fun s hs => ⟨commandWrite_encode .block s, fun idle herr hctrl => ?ready, exec_of_busy hs .block,
    fun v idle op hv => ?illegal, exec_of_err hs (by simp), exec_of_done hs (by simp)⟩,
    fun s hi idle => (hi.pend_none_of_idle idle).2, ⟨_, rfl, rfl⟩⟩
  case ready => exact exec_of_ready hs idle (.inr ⟨herr, by simp [hctrl]⟩)
  case illegal =>
    refine commandWrite_of_illegal_idle hs idle (decode_illegal_of_op (c := .block) op fun i hi => ?_)
    cases i with
    | block => exact hv
    | init | final n => simp [Laws.CommandWord.opOf] at hi

/-- Settles O30: as BLOCK, for every count; an illegal word with FINAL's operation fails the mask of R42. -/
theorem finalAcceptance : Obligations.FinalAcceptance := by
  refine ⟨fun s n hs => ⟨?word, fun idle herr hctrl => ?ready, exec_of_busy hs _,
    fun v idle op hv => ?illegal, exec_of_err hs (by simp), exec_of_done hs (by simp)⟩, ⟨_, rfl, rfl⟩⟩
  case word => rw [encode_final]; exact commandWrite_encode (.final n) s
  case ready => exact exec_of_ready hs idle (.inr ⟨herr, by simp [hctrl]⟩)
  case illegal =>
    refine commandWrite_of_illegal_idle hs idle (decode_illegal_of_op (c := .final n) op fun i hi => ?_)
    cases i with
    | final m => rintro rfl; exact hv (masked_encode_final m)
    | init | block => simp [Laws.CommandWord.opOf] at hi

end Sys2Proof.Machine

/-! ### Completion of commands -/

namespace Sys2Proof.Machine

/-! #### INIT -/

/-- INIT's completion leaves nothing of the earlier state that a second one would change (R82). -/
theorem completeInit_completeInit (s : State) : completeInit (completeInit s) = completeInit s := rfl

/-- Settles O35: every field that INIT's completion writes is at its reset value. -/
theorem initCompletion : Obligations.InitCompletion := by
  intro s hs
  have again : exec .init (completeInit s) = .next (completeInit s) := by
    rw [execInit_core (s := completeInit s) hs, completeInit_completeInit]
  exact ⟨completeInit s, execInit_core hs, fun _ => rfl, rfl, rfl, rfl, rfl, rfl, rfl, fun _ => rfl, again,
    rfl, rfl, rfl, rfl, rfl, rfl, rfl, State.status_congr (s := State.reset) rfl rfl rfl rfl, rfl⟩

/-! #### BLOCK -/

/-- BLOCK completes with the compression of the bytes that `BUF` holds (R84). -/
theorem execBlock_of_bytes {s : State} {b : Block} (hs : s.turn = .core)
    (h : ∀ k, (hk : k < 128) → Memory.read? s.buf k = some b[k]) :
    exec .block s = .next (completeBlock s) ∧ (completeBlock s).h = compress s.h b := by
  have all_marked : marked s.buf 128 = true := (marked_iff _ _).mpr fun k hk => by simp [h k hk]
  rw [execBlock_core hs, if_pos all_marked, completeBlock_h, bufBlock_of_marked _ _ _ h]
  exact ⟨rfl, rfl⟩

theorem execBlock_of_unmarked {s : State} (hs : s.turn = .core)
    (h : ∃ k, k < 128 ∧ Memory.read? s.buf k = none) : exec .block s = .fault .unwrittenBufByte := by
  simp [execBlock_core hs, (marked_eq_false_iff _ _).mpr h]

/-- A byte listed in a canonical memory is read at its offset. -/
theorem Memory.read?_of_mem {m : List Host.Cell} {c : Host.Cell} (h : m.Pairwise fun c d => c.1 < d.1)
    (hc : c ∈ m) : Memory.read? m c.1 = some c.2 := by
  induction m with
  | nil => cases hc
  | cons d m ih =>
    obtain ⟨hd, hm⟩ := List.pairwise_cons.mp h
    rcases List.mem_cons.mp hc with rfl | hc
    · simp [Memory.read?]
    · rw [Memory.read?, if_neg (hd c hc).ne, ih hm hc]

/-- A memory that lists `f k` at every offset `k` below `n`. -/
theorem Memory.read?_map_range {n k : Nat} (f : Nat → Byte) (hk : k < n) :
    Memory.read? ((List.range n).map fun k => (k, f k)) k = some (f k) := by
  refine Memory.read?_of_mem (c := (k, f k)) (List.pairwise_map.mpr List.pairwise_lt_range) ?_
  exact List.mem_map_of_mem (f := fun k => (k, f k)) (List.mem_range.mpr hk)

theorem schedule_zeroBlock_eq : schedule zeroBlock = List.replicate 80 0 := by
  refine List.ext_getElem (by simp [schedule_length]) fun t ht _ => ?_
  have word := schedule_zeroBlock (t := t) (by simpa [schedule_length] using ht)
  rw [List.getD_eq_getElem _ _ ht] at word
  rw [word, List.getElem_replicate]

/-- Register `a` after the 80 rounds of a block of zeros from `IV`, run by the kernel. -/
theorem rounds_zeroBlock_a : (rounds (schedule zeroBlock) (loadWork iv) 80).a = 0x656e9b6d838e02e0 := by
  rw [schedule_zeroBlock_eq]; decide +kernel

/-- The example of R84. -/
theorem compress_zeroBlock_first : (compress iv zeroBlock)[0] = 0xcf7881d5774acbe8 :=
  calc (compress iv zeroBlock)[0]
    _ = 0x6a09e667f3bcc908 + (rounds (schedule zeroBlock) (loadWork iv) 80).a :=
        compress_getElem iv zeroBlock 0 (by decide)
    _ = 0xcf7881d5774acbe8 := by rw [rounds_zeroBlock_a]; decide

/-- Settles O36: by `execBlock_of_bytes`; the example's block is the zero block. -/
theorem blockCompletion : Obligations.BlockCompletion := by
  refine ⟨fun s b hs h => ?completes, fun s hs => execBlock_of_unmarked hs, ?zeros⟩
  case completes =>
    obtain ⟨hx, hh⟩ := execBlock_of_bytes hs h
    exact ⟨_, hx, rfl, hh, rfl, rfl, rfl, rfl, rfl, fun _ => rfl,
      fun wraps => by rw [completeBlock_mlen]; bv_omega⟩
  case zeros =>
    obtain ⟨hx, hh⟩ := execBlock_of_bytes (b := zeroBlock) (s := { State.reset with
        turn := .core, busy := true, pend := some .block, buf := (List.range 128).map fun k => (k, 0x00) }) rfl
      fun k hk => by rw [zeroBlock_getElem]; exact Memory.read?_map_range (fun _ => 0x00) hk
    exact ⟨_, hx, by rw [hh]; exact compress_zeroBlock_first, rfl⟩

/-! #### FINAL -/

theorem pad_congr {b b' : Block} {n : Nat} (len : Word) (h : ∀ k, (hk : k < 128) → k < n → b[k] = b'[k]) :
    pad b n len = pad b' n len := padderReadsOnlyValidBytes.1 b b' n len h

theorem compressPadded_of_none (h : Vector Word 8) {p : Padded} (hp : p.pb1 = none) :
    compressPadded h p = compress h p.pb0 := by simp [compressPadded, hp]

theorem compressPadded_of_some (h : Vector Word 8) {p : Padded} {b : Block} (hp : p.pb1 = some b) :
    compressPadded h p = compress (compress h p.pb0) b := by simp [compressPadded, hp]

/-- FINAL n completes when the `n` bytes it reads are marked, and pads any block that begins with them (R86). -/
theorem execFinal_of_bytes {s : State} {n : BitVec 7} {b : Block} (hs : s.turn = .core)
    (h : ∀ k, (hk : k < 128) → k < n.toNat → Memory.read? s.buf k = some b[k]) :
    exec (.final n) s = .next (completeFinal n.toNat s)
    ∧ (completeFinal n.toNat s).h = compressPadded s.h (pad b n.toNat (completeFinal n.toNat s).mlen) := by
  have all_marked : marked s.buf n.toNat = true :=
    (marked_iff _ _).mpr fun k hk => by simp [h k (by omega) hk]
  have same_block : ∀ k, (hk : k < 128) → k < n.toNat → (bufBlock s.buf s.fresh)[k] = b[k] :=
    fun k hk hkn => by rw [bufBlock_getElem, h k hk hkn, Option.getD_some]
  rw [execFinal_core n hs, if_pos all_marked, completeFinal_h, completeFinal_mlen, pad_congr _ same_block]
  exact ⟨rfl, rfl⟩

theorem execFinal_of_unmarked {s : State} {n : BitVec 7} (hs : s.turn = .core)
    (h : ∃ k, k < n.toNat ∧ Memory.read? s.buf k = none) : exec (.final n) s = .fault .unwrittenBufByte := by
  simp [execFinal_core n hs, (marked_eq_false_iff _ _).mpr h]

theorem completeFinal_mlen_eq (n : Nat) (s : State) :
    (completeFinal n s).mlen = s.mlen + BitVec.ofNat 64 (8 * n) := by
  rw [completeFinal_mlen, BitVec.ofNat_mul]; rfl

/-- A block that begins with the bytes of "abc". -/
def abcBytes : Block := Vector.ofFn fun k => if k.val = 0 then 0x61 else if k.val = 1 then 0x62 else 0x63

theorem pad_abcBytes : pad abcBytes 3 24 = ⟨abcBlock, none⟩ := pad_of_le _ _ (by decide)

/-- Settles O37: by `execFinal_of_bytes`; the example is the padded "abc". -/
theorem finalCompletion : Obligations.FinalCompletion := by
  refine ⟨fun s n b hs h => ?completes, fun s n hs => execFinal_of_unmarked hs, ?abc⟩
  case completes =>
    obtain ⟨hx, hh⟩ := execFinal_of_bytes hs h
    exact ⟨_, hx, completeFinal_mlen_eq _ s, fun alone => hh.trans (compressPadded_of_none _ alone),
      fun p synthetic => hh.trans (compressPadded_of_some _ synthetic), fun _ => rfl, rfl, rfl, rfl, rfl, rfl,
      by simp [State.dvalid]⟩
  case abc =>
    obtain ⟨hx, hh⟩ := execFinal_of_bytes (n := 3) (b := abcBytes) (s := { State.reset with
        turn := .core, busy := true, pend := some (.final 3), ctrl := .finalizing
        buf := [(0, 0x61), (1, 0x62), (2, 0x63)] }) rfl
      fun k hk (hk3 : k < 3) => by interval_cases k <;> simp [Memory.read?, abcBytes]
    have digest := hh.trans (congrArg (compressPadded iv) pad_abcBytes)
    exact ⟨_, hx, by rw [digest]; exact compress_abcBlock_first, rfl, rfl⟩

/-- A marked byte of `BUF` stands in the block, whatever the draw of free values. -/
theorem read?_eq_bufBlock {m : List Host.Cell} {n : Nat} (h : marked m n = true) (d : Nat) :
    ∀ k, (hk : k < 128) → k < n → Memory.read? m k = some (bufBlock m d)[k] := by
  intro k hk hkn
  obtain ⟨byte, hbyte⟩ := Option.isSome_iff_exists.mp ((marked_iff m n).mp h k hkn)
  rw [bufBlock_getElem, hbyte, Option.getD_some]

/-- Settles O40: both runs pad the block of the first state, by `execFinal_of_bytes`. -/
theorem finalDependsOnlyOnValidBytes : Obligations.FinalDependsOnlyOnValidBytes := by
  intro s u t n hs hu hh hmlen hbytes ht
  obtain ⟨h, -⟩ | ⟨h, -⟩ | ⟨m, h, all_marked, rfl⟩ := exec_core_cases hs ht
  · cases h
  · cases h
  · obtain rfl : n = m := by simpa using h
    have reads := read?_eq_bufBlock (n := n.toNat) all_marked s.fresh
    obtain ⟨-, hsh⟩ := execFinal_of_bytes hs reads
    obtain ⟨hx, huh⟩ := execFinal_of_bytes hu fun k hk hkn => (hbytes k hkn).symm.trans (reads k hk hkn)
    have same_mlen : (completeFinal n.toNat u).mlen = (completeFinal n.toNat s).mlen := by
      rw [completeFinal_mlen, completeFinal_mlen, hmlen]
    exact ⟨_, hx, by rw [huh, same_mlen, ← hh]; exact hsh.symm, same_mlen⟩

end Sys2Proof.Machine

/-! ### Whole messages -/

namespace Sys2Proof.Machine

/-! #### The blocks of a byte string -/

theorem blockAt_getElem (m : List Byte) (j : Nat) {k : Nat} (hk : k < 128) :
    (blockAt m j)[k] = m.getD (128 * j + k) 0x00 := by
  simp [blockAt]

/-- A full block of a byte string is not changed by what follows the string. -/
theorem blockAt_append_of_le {m : List Byte} {j : Nat} (h : 128 * (j + 1) ≤ m.length) (l : List Byte) :
    blockAt (m ++ l) j = blockAt m j := by
  refine Vector.ext fun k hk => ?_
  rw [blockAt_getElem _ _ hk, blockAt_getElem _ _ hk, List.getD_append _ _ _ _ (by omega)]

/-- Behind a whole number of blocks the next block begins with the bytes that follow. -/
theorem blockAt_append_getElem {m l : List Byte} (hm : m.length % 128 = 0) {k : Nat} (hk : k < 128)
    (hl : k < l.length) : (blockAt (m ++ l) (m.length / 128))[k] = l[k] := by
  have index : 128 * (m.length / 128) + k = m.length + k := by omega
  rw [blockAt_getElem _ _ hk, index, List.getD_append_right _ _ _ _ (by omega), Nat.add_sub_cancel_left,
    List.getD_eq_getElem _ _ hl]

/-- The blocks of a longer string: those of the string it begins with, and `c` more. -/
theorem blocksOf_append {m l : List Byte} {c : Nat} (h : (m ++ l).length / 128 = m.length / 128 + c) :
    blocksOf (m ++ l)
      = blocksOf m ++ (List.range c).map fun j => blockAt (m ++ l) (m.length / 128 + j) := by
  rw [blocksOf, h, List.range_add, List.map_append, List.map_map]
  congr 1
  refine List.map_congr_left fun j hj => blockAt_append_of_le ?_ l
  have := List.mem_range.mp hj
  omega

/-! #### The blocks of the padded message are the padder's -/

/-- What the padder makes of the bytes behind a message's full blocks (R61, R66). -/
def lastBlocks (m : List Byte) : Padded :=
  pad (blockAt m (m.length / 128)) (m.length % 128) (BitVec.ofNat 64 (8 * m.length))

theorem lastBlocks_pb1_of_le {m : List Byte} (h : m.length % 128 ≤ 111) : (lastBlocks m).pb1 = none :=
  pad_pb1_of_le _ _ h

theorem lastBlocks_pb1_of_gt {m : List Byte} (h : ¬ m.length % 128 ≤ 111) :
    (lastBlocks m).pb1 = some (sealBlock zeroBlock (BitVec.ofNat 64 (8 * m.length))) := by
  rw [lastBlocks, pad_of_gt _ _ (by omega)]

/-- The padded message: the full blocks, then one block more or two (R68). -/
theorem blocksOf_paddedMessage (m : List Byte) :
    blocksOf (paddedMessage m) = blocksOf m ++ (List.range (if m.length % 128 ≤ 111 then 1 else 2)).map
      fun j => blockAt (paddedMessage m) (m.length / 128 + j) := by
  have length := paddedMessage_length_eq_blocks m
  rw [paddedMessage_eq] at length ⊢
  exact blocksOf_append (by rw [length, Nat.mul_div_cancel_left _ (by decide)])

/-- The block behind the full ones, region by region: bytes of the message, the terminator, the trailer where
there is room for it, and zeros (R62, R63). -/
theorem blockAt_paddedMessage (m : List Byte) :
    blockAt (paddedMessage m) (m.length / 128) = (lastBlocks m).pb0 := by
  have length := paddedMessage_length_eq_blocks m
  refine Vector.ext fun k hk => ?_
  rw [lastBlocks, pad_pb0_getElem _ _ _ hk, blockAt_getElem _ _ hk, blockAt_getElem _ _ hk]
  split
  case isTrue valid => rw [paddedMessage_eq, List.getD_append _ _ _ _ (by omega)]
  case isFalse behind =>
    rw [List.getD_eq_getElem?_getD]
    split
    case isTrue terminator =>
      rw [show 128 * (m.length / 128) + k = m.length by omega, paddedMessage_getElem?_terminator, Option.getD_some]
    case isFalse other =>
      split
      case isTrue trailer =>
        rw [if_pos trailer.1] at length
        rw [show 128 * (m.length / 128) + k = (paddedMessage m).length - 8 + (k - 120) by omega,
          paddedMessage_getElem?_trailer m (by omega), Option.getD_some]
      case isFalse zero =>
        rw [paddedMessage_getElem?_zero m (by omega) (by split at length <;> omega), Option.getD_some]

/-- Above the threshold the trailer stands in a block of its own (R64). -/
theorem blockAt_paddedMessage_succ {m : List Byte} (h : ¬ m.length % 128 ≤ 111) :
    blockAt (paddedMessage m) (m.length / 128 + 1) = sealBlock zeroBlock (BitVec.ofNat 64 (8 * m.length)) := by
  have length := paddedMessage_length_eq_blocks m
  rw [if_neg h] at length
  refine Vector.ext fun k hk => ?_
  rw [sealBlock_getElem, zeroBlock_getElem, blockAt_getElem _ _ hk, List.getD_eq_getElem?_getD]
  split
  case isTrue trailer =>
    rw [show 128 * (m.length / 128 + 1) + k = (paddedMessage m).length - 8 + (k - 120) by omega,
      paddedMessage_getElem?_trailer m (by omega), Option.getD_some]
  case isFalse zero => rw [paddedMessage_getElem?_zero m (by omega) (by omega), Option.getD_some]

theorem absorbed_append (bs cs : List Block) : absorbed (bs ++ cs) = cs.foldl compress (absorbed bs) :=
  List.foldl_append

/-- The digest of a message: its full blocks compressed in turn, then the padder's block or blocks (R88). -/
theorem messageDigest_eq (m : List Byte) :
    messageDigest m = compressPadded (absorbed (blocksOf m)) (lastBlocks m) := by
  rw [messageDigest, blocksOf_paddedMessage, absorbed_append]
  by_cases fits : m.length % 128 ≤ 111
  · rw [if_pos fits, compressPadded_of_none _ (lastBlocks_pb1_of_le fits), ← blockAt_paddedMessage]
    rfl
  · rw [if_neg fits, compressPadded_of_some _ (lastBlocks_pb1_of_gt fits), ← blockAt_paddedMessage,
      ← blockAt_paddedMessage_succ fits]
    rfl

/-! #### BLOCK and FINAL on the message the core stands for -/

/-- The bit count of a message and the bytes behind it, modulo 2^64 (R14). -/
theorem ofNat_length_append (m l : List Byte) :
    BitVec.ofNat 64 (8 * (m ++ l).length) = BitVec.ofNat 64 (8 * m.length) + BitVec.ofNat 64 (8 * l.length) := by
  rw [List.length_append, Nat.mul_add, BitVec.ofNat_add]

/-- The bytes in `BUF`, read as the block behind a whole number of blocks. -/
theorem Holds.read?_eq_blockAt {s : State} {m bytes : List Byte} (hb : Holds s bytes) (hm : m.length % 128 = 0) :
    ∀ k, (hk : k < 128) → k < bytes.length →
      Memory.read? s.buf k = some (blockAt (m ++ bytes) (m.length / 128))[k] :=
  fun k hk hkb => by rw [hb k hkb, blockAt_append_getElem hm hk hkb]

/-- Settles O42: the block that BLOCK compresses is the one block by which the message grows. -/
theorem blockExtendsTheMessage : Obligations.BlockExtendsTheMessage := by
  rintro s m bytes hs ⟨hm, hh, hmlen⟩ hlen hb
  have one_more : (m ++ bytes).length / 128 = m.length / 128 + 1 := by rw [List.length_append]; omega
  obtain ⟨hx, hth⟩ := execBlock_of_bytes hs fun k hk => hb.read?_eq_blockAt hm k hk (by omega)
  refine ⟨_, hx, by rw [List.length_append]; omega, ?digest, ?count⟩
  case digest => rw [hth, hh, blocksOf_append one_more, absorbed_append]; rfl
  case count => rw [completeBlock_mlen, hmlen, ofNat_length_append, hlen]; rfl

/-- Settles O43: FINAL compresses what the padder makes of the bytes behind the full blocks, and so does the
digest, by `messageDigest_eq`. -/
theorem finalGivesTheMessageDigest : Obligations.FinalGivesTheMessageDigest := by
  rintro s m bytes n hs ⟨hm, hh, hmlen⟩ hlen hb
  have length : (m ++ bytes).length = m.length + bytes.length := List.length_append
  have full : (m ++ bytes).length / 128 = m.length / 128 := by omega
  have rest : (m ++ bytes).length % 128 = n.toNat := by omega
  have blocks : blocksOf (m ++ bytes) = blocksOf m := by simpa using blocksOf_append (c := 0) full
  obtain ⟨hx, hth⟩ := execFinal_of_bytes (n := n) hs fun k hk hkn => hb.read?_eq_blockAt hm k hk (by omega)
  have count : (completeFinal n.toNat s).mlen = BitVec.ofNat 64 (8 * (m ++ bytes).length) := by
    rw [completeFinal_mlen_eq, hmlen, ofNat_length_append, hlen]
  refine ⟨_, hx, ?digest, count, rfl, fun herr hcode => ?status⟩
  case digest => rw [messageDigest_eq, lastBlocks, full, rest, blocks, ← hh, ← count]; exact hth
  case status => exact State.status_congr (s := { State.reset with ctrl := .done }) rfl rfl herr hcode

end Sys2Proof.Machine

/-! ### Interface errors and model faults -/

namespace Sys2Proof.Machine

/-! #### Recording an error -/

theorem State.raiseIfErr_of_no_err {s : State} (h : s.err = false) (code : ErrCode) :
    s.raiseIfErr code = { s with err := true, errcode := code } := by
  simp [State.raiseIfErr, h]

theorem State.raiseIfErr_of_err {s : State} (h : s.err = true) (code : ErrCode) : s.raiseIfErr code = s := by
  rw [State.raiseIfErr, if_pos h]

/-- Settles O31: by ERR. -/
theorem firstErrorIsKept : Obligations.FirstErrorIsKept := fun _ code =>
  ⟨fun h => State.raiseIfErr_of_no_err h code, fun h => State.raiseIfErr_of_err h code⟩

/-- ERRCODE stands in bits 6:4 of STATUS (R43). -/
theorem State.status_errcode (s : State) : s.status.extractLsb' 4 3 = s.errcode.code := by
  obtain ⟨-, -, -, -, code, -⟩ := s.status_fields
  exact code

/-- An answer that raises an error while none is recorded records it, and STATUS shows its code (R95). -/
theorem records_of_eq_withError {o : Host.Outcome State Fault Refusal} {s : State} {code : ErrCode}
    (herr : s.err = false) (h : o = .next (withError s code)) :
    ∃ t, o = .next t ∧ t = { s with err := true, errcode := code } ∧ t.status.extractLsb' 4 3 = code.code := by
  rw [← raiseIfErr_eq_withError, State.raiseIfErr_of_no_err herr] at h
  exact ⟨_, h, rfl, State.status_errcode _⟩

/-- The words of BLOCK and FINAL are those of the commands other than INIT. -/
theorem exists_decode_ne_init {v : BitVec 32} (h : decode v = .ok .block ∨ ∃ n, decode v = .ok (.final n)) :
    ∃ i, i ≠ .init ∧ decode v = .ok i := by
  obtain hd | ⟨n, hd⟩ := h
  · exact ⟨.block, by simp, hd⟩
  · exact ⟨.final n, by simp, hd⟩

/-- Settles O32: each cause is one of R80's tests. -/
theorem commandErrorsAndTheirCodes : Obligations.CommandErrorsAndTheirCodes := by
  intro s v hs herr
  refine ⟨fun idle hd => ?illegal, fun idle hdone hd => ?sequence, fun busy => ?busy⟩
  case illegal => exact records_of_eq_withError herr (commandWrite_of_illegal_idle hs idle hd)
  case sequence =>
    obtain ⟨i, hi, hd⟩ := exists_decode_ne_init hd
    exact records_of_eq_withError herr ((commandWrite_of_decode hd s).trans (exec_of_done hs hi idle herr hdone))
  case busy => exact records_of_eq_withError herr (commandWrite_of_busy hs v busy)

/-- A legal `BUF` write while busy raises BUF_BUSY and does nothing else (R99). -/
theorem hostWrite_buf_of_busy {s : State} {off : BitVec 8} {n : Nat} (busy : s.busy = true)
    (hoff : off.toNat ≤ 0x7F) (legal : n = 1 ∨ (n = 8 ∧ off.toNat % 8 = 0)) (v : Word) :
    hostWrite off n v s = .next (s.raiseIfErr .bufBusy) := by
  obtain rfl | ⟨rfl, haligned⟩ := legal
  · rw [hostWrite_byte hoff, State.storeBytes_of_busy busy]
  · rw [hostWrite_word hoff haligned, State.storeBytes_of_busy busy]

/-- Settles O33: by `hostWrite_buf_of_busy`, whatever the width. -/
theorem busyBufferWriteIsDropped : Obligations.BusyBufferWriteIsDropped := by
  intro s off n v busy hoff legal
  refine ⟨_, hostWrite_buf_of_busy busy hoff legal v, ?record, State.raiseIfErr_errcode _ _,
    State.raiseIfErr_dvalid _ _⟩
  case record => rw [State.raiseIfErr_errcode]; exact State.raiseIfErr_eq s .bufBusy

/-! #### A recorded error is kept -/

/-- After an error a CMD write does nothing, or it is an idle core's acceptance of INIT (R95, R100). -/
theorem State.writeCommand_of_err {s : State} (herr : s.err = true) (c : Option Instr) :
    s.writeCommand c = s ∨ (s.busy = false ∧ s.writeCommand c = s.accept .init) := by
  cases hb : s.busy with
  | true => exact .inl (by rw [State.writeCommand_of_busy hb, State.raiseIfErr_of_err herr])
  | false =>
    cases c with
    | none => exact .inl (by rw [State.writeCommand_of_illegal hb, State.raiseIfErr_of_err herr])
    | some i =>
      rw [State.writeCommand_of_legal hb]
      obtain ⟨he, rfl | ⟨hno, -⟩⟩ | ⟨he, -⟩ | ⟨-, hno, -⟩ := State.admit_cases s i
      · exact .inr ⟨rfl, he⟩
      · simp [herr] at hno
      · exact .inl he
      · simp [herr] at hno

theorem State.storeBytes_keeps_error {s : State} (herr : s.err = true) (k : Nat) (bs : List Byte) :
    (s.storeBytes k bs).err = true ∧ (s.storeBytes k bs).errcode = s.errcode := by
  cases hb : s.busy with
  | true => rw [State.storeBytes_of_busy hb, State.raiseIfErr_of_err herr]; exact ⟨herr, rfl⟩
  | false => rw [State.storeBytes_of_idle hb]; exact ⟨herr, rfl⟩

/-- A host step keeps a recorded error, and all it can have an idle core accept then is INIT. -/
theorem hostStep_of_err {s t : State} (hs : s.turn = .host) (h : hostStep s = .next t) (herr : s.err = true) :
    (t.err = true ∧ t.errcode = s.errcode) ∧ (t.busy = s.busy ∨ t.pend = some .init) := by
  obtain rfl | ⟨_, rfl⟩ | ⟨_, rest, rfl, rfl | ⟨_, rfl⟩ | ⟨_, _, _, k, bs, _, _, _, rfl⟩ | ⟨c, rfl⟩⟩ :=
    hostStep_cases hs h
  case inr.inr.inr.inr.inl =>
    exact ⟨State.storeBytes_keeps_error (s := { s with host := rest }) herr k bs,
      .inl (State.storeBytes_busy _ k bs)⟩
  case inr.inr.inr.inr.inr =>
    obtain he | ⟨-, he⟩ := State.writeCommand_of_err (s := { s with host := rest }) herr c <;> rw [he]
    · exact ⟨⟨herr, rfl⟩, .inl rfl⟩
    · exact ⟨⟨herr, rfl⟩, .inr rfl⟩
  all_goals simp [herr]

/-- Only INIT's completion writes ERR and ERRCODE (R82, R84, R86). -/
theorem exec_core_keeps_error {i : Instr} {s t : State} (hs : s.turn = .core) (h : exec i s = .next t)
    (hi : i ≠ .init) : t.err = s.err ∧ t.errcode = s.errcode := by
  obtain ⟨rfl, -⟩ | ⟨-, -, rfl⟩ | ⟨_, -, -, rfl⟩ := exec_core_cases hs h
  · exact absurd rfl hi
  · exact ⟨rfl, rfl⟩
  · exact ⟨rfl, rfl⟩

/-- The next step of `s` is one of the two that clear an error: the reset event or INIT's completion (R103). -/
def ClearsError (s : State) : Prop :=
  s.nextTurn = .reset ∨ (s.nextTurn = .agent .core ∧ s.busy = true ∧ s.pend = some .init)

theorem step_reset {s : State} (h : s.nextTurn = .reset) :
    step s = .next { s with sched := s.sched.tail }.resetEvent := by
  rw [step, stepTurn, h]; rfl

theorem step_of_clearsError {s t : State} (hclear : ClearsError s) (h : step s = .next t) :
    (t.err = false ∧ t.errcode = .none) ∧ t.ctrl = .streaming := by
  obtain hreset | ⟨hturn, busy, hpend⟩ := hclear
  · obtain rfl := Host.Outcome.next.inj ((step_reset hreset).symm.trans h)
    exact ⟨⟨rfl, rfl⟩, rfl⟩
  · rw [step_core_of_busy hturn busy hpend, execInit_core rfl] at h
    obtain rfl := Host.Outcome.next.inj h
    exact ⟨⟨rfl, rfl⟩, rfl⟩

theorem step_keeps_error {s t : State} (herr : s.err = true) (hkeep : ¬ ClearsError s) (h : step s = .next t) :
    t.err = true ∧ t.errcode = s.errcode := by
  obtain ⟨-, h⟩ | ⟨hturn, h⟩ | ⟨hreset, -⟩ := step_cases h
  · exact (hostStep_of_err rfl h herr).1
  · obtain ⟨-, rfl⟩ | ⟨busy, i, hpend, hx⟩ := coreStep_cases h
    · exact ⟨herr, rfl⟩
    · have not_init : i ≠ .init := by
        rintro rfl
        exact hkeep (.inr ⟨hturn, busy, hpend⟩)
      obtain ⟨he, hcode⟩ := exec_core_keeps_error rfl hx not_init
      exact ⟨he.trans herr, hcode⟩
  · exact absurd (.inl hreset) hkeep

/-- Settles O54: by whether the step is one of the two that clear an error. -/
theorem errorsAreSticky : Obligations.ErrorsAreSticky := fun _ _ herr h =>
  ⟨fun hclear => (step_of_clearsError hclear h).1, fun hkeep => step_keeps_error herr hkeep h⟩

/-! #### After an error -/

/-- The step after which an idle core is busy is a host step, and with an error recorded it accepts INIT (R100). -/
theorem step_accepts_init_of_err {s t : State} (herr : s.err = true) (h : step s = .next t) (idle : s.busy = false)
    (busy : t.busy = true) : t.pend = some .init := by
  have busy_changed : t.busy ≠ s.busy := by simp [idle, busy]
  obtain ⟨-, h⟩ | ⟨hturn, -⟩ | ⟨-, rfl⟩ := step_cases h
  · exact (hostStep_of_err rfl h herr).2.resolve_left busy_changed
  · obtain rfl := Host.Outcome.next.inj ((step_core_of_idle hturn idle).symm.trans h)
    exact absurd rfl busy_changed
  · simp at busy

/-- A step that clears an error ends in STREAMING, and every other keeps the error (R43, R102). -/
theorem dvalid_of_step_of_err {s t : State} (herr : s.err = true) (h : step s = .next t) : t.dvalid = false := by
  by_cases hclear : ClearsError s
  · simp [State.dvalid, (step_of_clearsError hclear h).2]
  · simp [State.dvalid, (step_keeps_error herr hclear h).1]

/-- Settles O55: the commands by their acceptance, `H` by its writers, DVALID by `dvalid_of_step_of_err`. -/
theorem noBlockAfterAnError : Obligations.NoBlockAfterAnError := by
  refine ⟨fun s v hs idle herr hd => ?ignored,
    fun s t herr h => ⟨step_accepts_init_of_err herr h, fun idle hne => ?digest, dvalid_of_step_of_err herr h⟩⟩
  case ignored =>
    obtain ⟨i, hi, hd⟩ := exists_decode_ne_init hd
    exact (commandWrite_of_decode hd s).trans (exec_of_err hs hi idle herr)
  case digest =>
    obtain hreset | ⟨-, busy, -⟩ := (onlyTheRulesWritersWrite s t h).1 (.inl hne)
    · exact hreset
    · simp [idle] at busy

/-! #### The fault of an unmarked byte -/

/-- The check of R105 stops a completion exactly when a byte below `n` is unmarked. -/
theorem fault_of_check_iff (m : List Host.Cell) (n : Nat) (t : State) :
    (if marked m n then Host.Outcome.next t else .fault .unwrittenBufByte : Host.Outcome State Fault Refusal)
      = .fault .unwrittenBufByte ↔ ∃ k, k < n ∧ Memory.read? m k = none := by
  rw [← marked_eq_false_iff]
  cases marked m n <;> simp

/-- Settles O38: both completions are the check of R105. -/
theorem unwrittenByteIsAFault : Obligations.UnwrittenByteIsAFault := by
  intro s n hs
  rw [execBlock_core hs, execFinal_core n hs]
  exact ⟨fault_of_check_iff _ _ _, fault_of_check_iff _ _ _⟩

end Sys2Proof.Machine

/-! ### Reset -/

namespace Sys2Proof.Machine

/-- Every field of the core that R23 gives a reset value has it, and no byte of `BUF` is marked. -/
structure HasResetValues (s : State) : Prop where
  h : s.h = iv
  mlen : s.mlen = 0
  ctrl : s.ctrl = .streaming
  idle : s.busy = false
  err : s.err = false
  errcode : s.errcode = .none
  pend : s.pend = none
  unmarked : ∀ a, Memory.read? s.buf a = none

theorem HasResetValues.reset : HasResetValues State.reset := ⟨rfl, rfl, rfl, rfl, rfl, rfl, rfl, fun _ => rfl⟩

/-- The reset event reads nothing of the state it comes upon, a command in flight included (R110). -/
theorem HasResetValues.resetEvent (s : State) : HasResetValues s.resetEvent where
  h := s.resetEvent_h
  mlen := s.resetEvent_mlen
  ctrl := s.resetEvent_ctrl
  idle := s.resetEvent_busy
  err := s.resetEvent_err
  errcode := s.resetEvent_errcode
  pend := s.resetEvent_pend
  unmarked a := by rw [State.resetEvent_buf, Memory.read?_nil]

/-- A core with the reset values accepts the word of any command, as the first of a message (R111). -/
theorem HasResetValues.commandWrite_accepts {s : State} (hr : HasResetValues s) (hs : s.turn = .host) (i : Instr) :
    commandWrite (encode i) s = .next (s.accept i) := by
  have streaming : s.ctrl ≠ .done := by simp [hr.ctrl]
  rw [commandWrite_encode]
  exact exec_of_ready hs hr.idle (.inr ⟨hr.err, streaming⟩)

/-- Settles O47: the step is the reset event, with the turn taken off the order. -/
theorem resetEventRestoresResetValues : Obligations.ResetEventRestoresResetValues := by
  intro s hreset
  obtain ⟨h, mlen, ctrl, idle, err, errcode, pend, unmarked⟩ :=
    HasResetValues.resetEvent { s with sched := s.sched.tail }
  exact ⟨_, step_reset hreset, h, mlen, ctrl, idle, err, errcode, pend, unmarked⟩

/-- Settles O48: the reset state has the reset values and is on the host's turn. -/
theorem resetIsIdleAndReady : Obligations.ResetIsIdleAndReady := by
  have hr := HasResetValues.reset
  refine ⟨by decide, hr.h, hr.mlen, hr.pend, hr.unmarked, fun i => ?accepted⟩
  exact ⟨_, hr.commandWrite_accepts rfl i, State.accept_busy _ i, State.accept_pend _ i,
    (State.accept_err _ i).trans hr.err⟩

end Sys2Proof.Machine

/-! ### Frames of acceptance and completion -/

namespace Sys2Proof.Machine

/-- STATE after a CMD write of a legal command: as it was, or what the command's acceptance makes of it (R80). -/
theorem State.writeCommand_some_ctrl (s : State) (i : Instr) :
    (s.writeCommand (some i)).ctrl = s.ctrl ∨ (s.writeCommand (some i)).ctrl = acceptedCtrl s.ctrl i := by
  cases hb : s.busy with
  | true => rw [State.writeCommand_of_busy hb]; exact .inl (State.raiseIfErr_ctrl _ _)
  | false =>
    rw [State.writeCommand_of_legal hb]
    obtain ⟨he, -⟩ | ⟨he, -⟩ | ⟨he, -⟩ := State.admit_cases s i <;> rw [he]
    · exact .inr rfl
    · exact .inl rfl
    · exact .inl (State.raiseIfErr_ctrl _ _)

theorem acceptedCtrl_of_ne_final {i : Instr} (hi : ∀ n, i ≠ .final n) (ctrl : Ctrl) : acceptedCtrl ctrl i = ctrl := by
  cases i with
  | init | block => rfl
  | final n => exact absurd rfl (hi n)

theorem State.writeCommand_keeps_error {s : State} (herr : s.err = true) (c : Option Instr) :
    (s.writeCommand c).err = true ∧ (s.writeCommand c).errcode = s.errcode := by
  obtain he | ⟨-, he⟩ := State.writeCommand_of_err herr c <;> rw [he] <;> exact ⟨herr, rfl⟩

/-- A CMD write while busy leaves the command in flight alone (R98). -/
theorem State.writeCommand_keeps_in_flight {s : State} (busy : s.busy = true) (c : Option Instr) :
    (s.writeCommand c).busy = true ∧ (s.writeCommand c).pend = s.pend ∧ (s.writeCommand c).ctrl = s.ctrl := by
  rw [State.writeCommand_of_busy busy]
  exact ⟨(State.raiseIfErr_busy _ _).trans busy, State.raiseIfErr_pend _ _, State.raiseIfErr_ctrl _ _⟩

theorem State.writeCommand_sameBytes (s : State) (c : Option Instr) : SameBytes s (s.writeCommand c) :=
  fun a => by rw [State.writeCommand_buf]

theorem State.writeCommand_sameHostSide (s : State) (c : Option Instr) : SameHostSide s (s.writeCommand c) :=
  ⟨State.writeCommand_host s c, State.writeCommand_sched s c, State.writeCommand_reads s c,
    State.writeCommand_turn s c⟩

/-- Settles O34: on the host's turn every command is a CMD write, and STATE is `State.writeCommand_some_ctrl`. -/
theorem acceptanceFrame : Obligations.AcceptanceFrame := by
  intro i s t hs h
  obtain rfl := Host.Outcome.next.inj ((exec_host i s hs).symm.trans h)
  refine ⟨State.writeCommand_h _ _, State.writeCommand_mlen _ _, State.writeCommand_sameBytes _ _,
    State.writeCommand_scratch _ _, State.writeCommand_fresh _ _, State.writeCommand_sameHostSide _ _,
    fun herr => State.writeCommand_keeps_error herr _, fun busy => State.writeCommand_keeps_in_flight busy _,
    fun hi => ?ctrl⟩
  case ctrl => simpa only [acceptedCtrl_of_ne_final hi, or_self] using State.writeCommand_some_ctrl s i

section completion
variable {i : Instr} {s t : State} (hs : s.turn = .core) (h : exec i s = .next t)
include hs h

/-- No completion touches the host's side (R79). -/
theorem exec_core_sameHostSide : SameHostSide s t := by
  obtain ⟨-, rfl⟩ | ⟨-, -, rfl⟩ | ⟨_, -, -, rfl⟩ := exec_core_cases hs h
  all_goals exact ⟨rfl, rfl, rfl, rfl⟩

/-- Only FINAL's completion unmarks bytes of `BUF` (R82, R84, R86). -/
theorem exec_core_sameBytes (hi : ∀ n, i ≠ .final n) : SameBytes s t := by
  obtain ⟨-, rfl⟩ | ⟨-, -, rfl⟩ | ⟨n, rfl, -⟩ := exec_core_cases hs h
  · exact fun _ => rfl
  · exact fun _ => rfl
  · exact absurd rfl (hi n)

end completion

/-- Settles O39: the frames that the completions share, and `completeInit` for the internal state. -/
theorem completionFrame : Obligations.CompletionFrame := by
  refine fun s t hs => ⟨fun h => ?init, fun h => ?block, fun n h => ?final⟩
  case init =>
    have hostSide := exec_core_sameHostSide hs h
    have bytes := exec_core_sameBytes hs h (by simp)
    obtain rfl := Host.Outcome.next.inj ((execInit_core hs).symm.trans h)
    exact ⟨bytes, completeInit_scratch s, completeInit_fresh s, hostSide⟩
  case block =>
    obtain ⟨hctrl, -⟩ := exec_core_control hs h
    obtain ⟨herr, hcode⟩ := exec_core_keeps_error hs h (by simp)
    exact ⟨hctrl, herr, hcode, exec_core_sameBytes hs h (by simp), exec_core_sameHostSide hs h⟩
  case final =>
    obtain ⟨herr, hcode⟩ := exec_core_keeps_error hs h (by simp)
    exact ⟨herr, hcode, exec_core_sameHostSide hs h⟩

end Sys2Proof.Machine

/-! ### Fixed values: the constants, known compressions, sample words, the empty message -/

namespace Sys2Proof.Machine

/-! #### The constants as roots of primes -/

/-- Trial division run by the kernel once, so that no check of a constant runs it again. -/
theorem primesBelow410_eq : primesBelow410 =
    [2, 3, 5, 7, 11, 13, 17, 19, 23, 29, 31, 37, 41, 43, 47, 53, 59, 61, 67, 71,
     73, 79, 83, 89, 97, 101, 103, 107, 109, 113, 127, 131, 137, 139, 149, 151, 157, 163, 167, 173,
     179, 181, 191, 193, 197, 199, 211, 223, 227, 229, 233, 239, 241, 251, 257, 263, 269, 271, 277, 281,
     283, 293, 307, 311, 313, 317, 331, 337, 347, 349, 353, 359, 367, 373, 379, 383, 389, 397, 401, 409] := by
  decide +kernel

/-- Settles O6: over the listed primes each inequality is between numerals. -/
theorem constantsArePrimeRoots : Obligations.ConstantsArePrimeRoots := by
  unfold Obligations.ConstantsArePrimeRoots
  rw [primesBelow410_eq]
  refine ⟨rfl, ?squareRoots, ?cubeRoots⟩
  case squareRoots => decide +kernel
  case cubeRoots => decide +kernel

/-! #### Known compressions -/

/-- The compression of a block of one repeated byte reads 16 copies of one word (R69, R77). -/
theorem compress_of_const {b : Block} {c : Byte} (hb : ∀ k, (hk : k < 128) → b[k] = c) (h : Vector Word 8) :
    compress h b
      = feedForward h (rounds (extend 64 (List.replicate 16 (beWord fun _ => c))) (loadWork h) 80) := by
  have framed : (List.finRange 16).map (frameWord b) = List.replicate 16 (beWord fun _ => c) := by
    rw [List.eq_replicate_iff]
    simpa using frameWord_of_const hb
  rw [compress_eq, schedule_eq, framed]

/-- Settles O14: each block repeats one byte, and the 80 rounds over its schedule are run by the kernel. -/
theorem compressKnownAnswers : Obligations.CompressKnownAnswers := by
  refine ⟨?zeros, ?ones, ?letters⟩
  case zeros => rw [compress_of_const zeroBlock_getElem]; decide +kernel
  case ones => rw [compress_of_const fun k hk => Vector.getElem_replicate hk]; decide +kernel
  case letters => rw [compress_of_const fun k hk => Vector.getElem_replicate hk]; decide +kernel

/-! #### Sample words -/

/-- Settles O15: the words of commands by `decode_encode`, the others by the checks of R41. -/
theorem sampleWordsDecode : Obligations.SampleWordsDecode :=
  ⟨decode_encode .init, decode_encode .block, decode_encode (.final 3), decode_encode (.final 127),
    (decode_eq_illegal_iff _).mpr (by decide), (decode_eq_illegal_iff _).mpr (by decide)⟩

/-! #### The empty message -/

/-- The empty message has no block and no bit (R88). -/
theorem standsFor_nil_iff (s : State) : StandsFor s [] ↔ s.h = iv ∧ s.mlen = 0 := by
  simp [StandsFor, absorbed, blocksOf]

/-- Settles O41: reset and INIT's completion both leave `IV` and 0. -/
theorem initStartsAMessage : Obligations.InitStartsAMessage :=
  ⟨(standsFor_nil_iff _).mpr ⟨rfl, rfl⟩, fun s hs =>
    ⟨_, execInit_core hs, (standsFor_nil_iff _).mpr ⟨completeInit_h s, completeInit_mlen s⟩⟩⟩

end Sys2Proof.Machine
